-- ==== Sys2Proof/Word.lean ====
section
/-! DEFINITION. The word types of the SAF image encoding engine (spec/00_scope.md R5, R7; spec/10_state.md R9).
Bits are numbered from 0, the least significant; every value of this hardware is unsigned. -/

namespace Sys2Proof

/-- `u8`: a colour channel, a QuantizedColor, a byte of the output stream, a command word (R5, R7). -/
abbrev Byte := BitVec 8

/-- One pixel word of the image memory: `R` = [23:16], `G` = [15:8], `B` = [7:0] (R28). -/
abbrev Pixel := BitVec 24

/-- A PaletteIndex, 0 to 15 (R7); also a run's count field (R20). -/
abbrev Nibble := BitVec 4

/-- The container of a dimension register.
`DIM_BITS` of R4 is at most 16; the low `DIM_BITS` bits are the register, the bits above them are 0. -/
abbrev Dim := BitVec 16

/-- The modes of a conversion (R7, R43). -/
inductive Mode where
  | normal
  | binary
  | compressed
  deriving DecidableEq, Repr

end Sys2Proof
end

