-- ==== Sys2Proof/Config.lean ====
section
/-! DEFINITION. What a build of the engine fixes (spec/00_scope.md R4) and the one free value of the model.
The parameters are data carried unchanged in State, so every statement over states speaks of every build
(notes/assumptions/1.md). -/

namespace Sys2Proof

/-- The build parameters of R4. `N_BITS` is `2 * dimBits` by R4 and is no field of its own. -/
structure Config where
  /-- `DIM_BITS`: width of `WIDTH` and `HEIGHT` (D2). -/
  dimBits : Nat
  /-- `CNT_BITS`: width of one histogram counter and of a palette entry's count (D3). -/
  cntBits : Nat
  /-- `IMG_WORDS`: pixel words the image memory holds (D6, OPEN). -/
  imgWords : Nat
  /-- `STRICT_DIMS`: dimensions of 256 and more are refused (D7). -/
  strictDims : Bool
  /-- `FIX_FINAL_RUN`: the run holding the last pixel is flushed after the scan (D8). -/
  fixFinalRun : Bool
  /-- `CSR_BASE`: where a platform places the registers (D23, OPEN).
  No rule reads it (R37); notes/assumptions/17.md. -/
  csrBase : Nat
  deriving DecidableEq, Repr

/-- The defaults of R4; `IMG_WORDS` is OPEN there and is the largest value R4 allows here
(DESIGN CHOICE, notes/assumptions/1.md). -/
def Config.default : Config where
  dimBits := 16
  cntBits := 32
  imgWords := 2 ^ 32
  strictDims := false
  fixFinalRun := false
  csrBase := 0

/-- FREE VALUE. The content of pixel address `k` of the image memory when no host write has reached it:
"`IMG` ... its content after power-up is unspecified" (R104).
Nothing constrains it; notes/assumptions/3.md. -/
opaque Config.powerUpPixel : Nat → Pixel

end Sys2Proof
end

