-- ==== Sys2Proof/Syntax.lean ====
section
/-! DEFINITION. The instructions: one constructor per row of spec/opcode_table.json, and the two code formats
they stand in (spec/30_encoding.md R42, R43, R54). No row has an operand field (R45), so no constructor has one. -/

namespace Sys2Proof

/-- The three host commands and the sixteen unit operations. -/
inductive Instr where
  /-- `ENC.NORMAL` (R84). -/
  | encNormal
  /-- `ENC.BINARY` (R85). -/
  | encBinary
  /-- `ENC.COMPRESSED` (R86). -/
  | encCompressed
  /-- `QUANT` (R55). -/
  | quant
  /-- `HIST.CLR` (R58). -/
  | histClr
  /-- `HIST.ACC` (R59). -/
  | histAcc
  /-- `PSEL.CLR` (R62). -/
  | pselClr
  /-- `PSEL.INS` (R63). -/
  | pselIns
  /-- `DIST` (R67). -/
  | dist
  /-- `MATCH` (R68). -/
  | matchIdx
  /-- `RLE.CLR` (R70). -/
  | rleClr
  /-- `RLE.STEP` (R71). -/
  | rleStep
  /-- `RLE.END` (R72). -/
  | rleEnd
  /-- `BIN.CLR` (R75). -/
  | binClr
  /-- `BIN.STEP` (R76). -/
  | binStep
  /-- `RAW.STEP` (R78). -/
  | rawStep
  /-- `HDR.W` (R81). -/
  | hdrW
  /-- `HDR.H` (R82). -/
  | hdrH
  /-- `PAL.OUT` (R83). -/
  | palOut
  deriving DecidableEq, Repr

/-- An encoded instruction: a command word as the host writes it to `CMD` (format `CMD8`, R42), or the 4-bit label
the spec's tables give a unit operation (format `UOP4`, R54: no register or bus of the engine carries it). -/
inductive CodeWord where
  | cmd8 (c : Byte)
  | uop4 (u : BitVec 4)
  deriving DecidableEq, Repr

/-- Why a code word stands for no instruction. -/
inductive Reject where
  /-- A reserved command word: every word but `0x00`, `0x01`, `0x02` (R44). -/
  | reservedCommand (c : Byte)
  deriving DecidableEq, Repr

end Sys2Proof
end

