-- ==== Sys2Proof/WellFormed.lean ====
section
/-! DEFINITION. The checks on terms the spec restricts: a command word (spec/30_encoding.md R42 to R44), a build's
parameters (spec/00_scope.md R4), an instruction. -/

namespace Sys2Proof

/-- Every instruction term is well formed: a command and a unit operation have no operand field (R45, R54). -/
def Instr.wf (_ : Instr) : Bool := true

/-- A code word is well formed when it is not reserved: bits 7:2 of a command word are 0 and its `mode` field is
not 3 (R42 to R44); every `UOP4` label names an operation (R54). -/
def CodeWord.wf : CodeWord → Bool
  | .cmd8 c => c.extractLsb' 2 6 == 0#6 && c.extractLsb' 0 2 != 3#2
  | .uop4 _ => true

/-- The ranges R4 gives the parameters: 8 ≤ `DIM_BITS` ≤ 16, `CNT_BITS` ≥ `N_BITS` = 2 × `DIM_BITS`,
`IMG_WORDS` ≤ 2^`N_BITS`. -/
def Config.wf (g : Config) : Bool :=
  decide (8 ≤ g.dimBits) && decide (g.dimBits ≤ 16) && decide (2 * g.dimBits ≤ g.cntBits)
    && decide (g.imgWords ≤ 2 ^ (2 * g.dimBits))

end Sys2Proof
end

