-- ==== Sys2Proof/Decode.lean ====
section
/-! DEFINITION. The decoder of command words and of unit-operation labels, and the encoder
(spec/30_encoding.md R42 to R44, R53, R54; spec/opcode_table.json). -/

namespace Sys2Proof

/-- `decodeCmd` of R53: total on the 256 command words, three of which are commands. -/
def decodeCmd (c : Byte) : Except Reject Instr :=
  if c.extractLsb' 2 6 ≠ 0#6 then .error (.reservedCommand c)
  else if c.extractLsb' 0 2 = 0#2 then .ok .encNormal
  else if c.extractLsb' 0 2 = 1#2 then .ok .encBinary
  else if c.extractLsb' 0 2 = 2#2 then .ok .encCompressed
  else .error (.reservedCommand c)

/-- The unit operation of a `UOP` label (the table of R54). -/
def decodeUop (u : BitVec 4) : Instr :=
  match u.toNat with
  | 0x0 => .quant
  | 0x1 => .histClr
  | 0x2 => .histAcc
  | 0x3 => .pselClr
  | 0x4 => .pselIns
  | 0x5 => .dist
  | 0x6 => .matchIdx
  | 0x7 => .rleClr
  | 0x8 => .rleStep
  | 0x9 => .rleEnd
  | 0xA => .binClr
  | 0xB => .binStep
  | 0xC => .rawStep
  | 0xD => .hdrW
  | 0xE => .hdrH
  | _ => .palOut

/-- Decoding of a code word of either format; a reserved word is rejected by name. -/
def decode : CodeWord → Except Reject Instr
  | .cmd8 c => decodeCmd c
  | .uop4 u => .ok (decodeUop u)

/-- The code word of an instruction: R43 for the commands, R54 for the unit operations. -/
def encode : Instr → CodeWord
  | .encNormal => .cmd8 0x00#8
  | .encBinary => .cmd8 0x01#8
  | .encCompressed => .cmd8 0x02#8
  | .quant => .uop4 0x0#4
  | .histClr => .uop4 0x1#4
  | .histAcc => .uop4 0x2#4
  | .pselClr => .uop4 0x3#4
  | .pselIns => .uop4 0x4#4
  | .dist => .uop4 0x5#4
  | .matchIdx => .uop4 0x6#4
  | .rleClr => .uop4 0x7#4
  | .rleStep => .uop4 0x8#4
  | .rleEnd => .uop4 0x9#4
  | .binClr => .uop4 0xA#4
  | .binStep => .uop4 0xB#4
  | .rawStep => .uop4 0xC#4
  | .hdrW => .uop4 0xD#4
  | .hdrH => .uop4 0xE#4
  | .palOut => .uop4 0xF#4

/-- The code word that `nbits` bits of value `w` are read as.
Below 8 bits it is a `UOP4` label; at 8 bits it is the command word when that word is one of the three commands, and
a label where it is not and fits 4 bits.
The two formats number their words independently (R42, R54), so the words 0, 1 and 2 at 8 bits have two readings
and get the command's: notes/assumptions/9.md. -/
def tableCodeWord (nbits w : Nat) : CodeWord :=
  if nbits < 8 then .uop4 (BitVec.ofNat 4 w)
  else if (CodeWord.cmd8 (BitVec.ofNat 8 w)).wf then .cmd8 (BitVec.ofNat 8 w)
  else if w < 16 then .uop4 (BitVec.ofNat 4 w)
  else .cmd8 (BitVec.ofNat 8 w)

/-- The instruction the decoder reads from the `nbits` bits `w` of a row of spec/opcode_table.json; `none` for a
value wider than its bits and for a reserved command word. -/
def decodeTableWord (nbits w : Nat) : Option Instr :=
  if 2 ^ nbits ≤ w ∨ 256 ≤ w ∨ (nbits < 8 ∧ 16 ≤ w) then none
  else (decode (tableCodeWord nbits w)).toOption

end Sys2Proof
end

