-- ==== Sys2Proof/Machine/State.lean ====
section
/-! DEFINITION. The state of the machine as plain data (spec/10_state.md R9 to R25), the host moves that wait to be
made (spec/30_encoding.md R52), the reasons a step can stop, and the state right after reset. -/

namespace Sys2Proof.Machine

/-- `PHASE` (R15): the sequencer's position. -/
inductive Phase where
  | idle
  | hdr0
  | hdr1
  | hist
  | psel
  | palout
  | scan
  | done
  deriving DecidableEq, Repr

/-- The fields of `STATUS` (R11); the word a host reads is `Status.word` of Machine/Flags.lean.
Bits 7:6 are reserved and read as 0, so they are no field (notes/assumptions/16.md). -/
structure Status where
  /-- Bit 0: a conversion is running. -/
  busy : Bool
  /-- Bit 1: `OUT` holds the full stream of the last accepted conversion. -/
  done : Bool
  /-- Bit 2: a command was refused; sticky. -/
  err : Bool
  /-- Bits 5:3: the cause of the refusal (R93). -/
  ecode : BitVec 3
  deriving DecidableEq, Repr

/-- One palette entry (R18, R31): `PALV`, `PALC`, `PALN`. -/
structure PalSlot where
  palv : Bool
  palc : Byte
  paln : Nat
  deriving DecidableEq, Repr

/-- The model's own operand and result ports of the pure unit operations, whose rules give them operands and a
result but no engine state (R55, R67, R68); notes/assumptions/7.md. -/
structure Ports where
  /-- Operand of `QUANT`: one RGB triple. -/
  pix : Pixel
  /-- First operand of `DIST`, and the operand of `MATCH`. -/
  a : Byte
  /-- Second operand of `DIST`. -/
  b : Byte
  /-- Result of `QUANT`. -/
  q : Byte
  /-- Result of `DIST`, 0 to 17 in 5 bits. -/
  d : BitVec 5
  /-- Result of `MATCH`. -/
  m : Nibble
  deriving DecidableEq, Repr

/-- One move of the host (R39, R52). Registers are named by their `CSR` number (R33).
`SETDIM` and `LOADIMG` expand to these (Machine/HostMoves.lean). -/
inductive HostMove where
  /-- `WR reg, v`. -/
  | wr (reg v : Nat)
  /-- `RD reg`. -/
  | rd (reg : Nat)
  /-- Write the pixel word `w` to `IMG` address `k`. -/
  | imgWr (k : Nat) (w : Pixel)
  /-- Read the pixel word at `IMG` address `k`. -/
  | imgRd (k : Nat)
  /-- Read the byte of `OUT` at position `i`. -/
  | outRd (i : Nat)
  /-- `READOUT`: read all of `OUT`. -/
  | readout
  /-- `RESET`: hardware reset. -/
  | reset
  /-- `WAIT`: make no other move until `DONE` = 1 or `ERR` = 1. -/
  | wait
  /-- The host makes no move and the engine takes its enabled step (notes/assumptions/4.md). -/
  | tick
  deriving DecidableEq, Repr

/-- The machine. The names are the spec's; indexes and counts are natural numbers (R6, R115; notes/assumptions/12.md). -/
structure State where
  /-- The build parameters (R4); no step changes them. -/
  cfg : Config
  /-- `STATUS` (R11). -/
  status : Status
  /-- `WIDTH` (R12). -/
  width : Dim
  /-- `HEIGHT` (R13). -/
  height : Dim
  /-- `LW` (R14). -/
  lw : Dim
  /-- `LH` (R14). -/
  lh : Dim
  /-- `LMODE` (R14). -/
  lmode : BitVec 2
  /-- `N` (R14). -/
  n : Nat
  /-- `PHASE` (R15). -/
  phase : Phase
  /-- `K` (R16). -/
  k : Nat
  /-- `HIST[0..255]` (R17). -/
  hist : Vector Nat 256
  /-- `PALV`, `PALC`, `PALN` (R18). -/
  pal : Vector PalSlot 16
  /-- `C` (R19). -/
  c : Nat
  /-- `J` (R19). -/
  j : Nat
  /-- `CURV` (R20). -/
  curv : Bool
  /-- `CUR` (R20). -/
  cur : Nibble
  /-- `RUN` (R20). -/
  run : Nibble
  /-- `ACC` (R21). -/
  acc : Byte
  /-- `NBITS` (R21). -/
  nbits : Nat
  /-- `OUT` (R22, R32). -/
  out : List Byte
  /-- `IMG` (R23, R28): the pixel words the host has written, addresses strictly rising. -/
  img : List (Nat × Pixel)
  /-- The model's own: operand and result ports of `QUANT`, `DIST`, `MATCH`. -/
  ports : Ports
  /-- The model's own: a unit operation issued on its own, which the next step runs. -/
  bench : Option (BitVec 4)
  /-- The model's own: host moves not yet made, oldest first. -/
  inbox : List HostMove
  /-- The model's own: the values the host has read, oldest first. -/
  seen : List Nat
  deriving DecidableEq, Repr

/-- Why the machine stops. Every fault of the engine is unreachable from an accepted START (R102); stopping there is
safe. -/
inductive Fault where
  /-- R102(a): `MATCH`, `RLE.STEP` or `PAL.OUT` reads a palette slot with `PALV` = 0. Safe. -/
  | unsetPaletteSlot
  /-- R102(b): `CUR` is read while `CURV` = 0. Raised by `readCur`. Safe. -/
  | noActiveRun
  /-- R102(c): a pixel address at or above `N` (engine reads) or `IMG_WORDS` (engine reads, host reads and writes: no
  such word exists). Safe. -/
  | imgOutOfRange
  /-- R102(d): a histogram counter would reach 2^`CNT_BITS`. Raised by `HIST.ACC`. Safe. -/
  | counterOverflow
  /-- R102(e): the sequencer meets `LMODE` = 3. Safe. -/
  | illegalMode
  /-- `K` > `N`, `C` > 256 or `J` > 16 in the sequencer, `C` > 255 in `PSEL.INS`, `J` > 15 in `PAL.OUT`: outside the
  ranges of R16, R19, where no row of R87 and no table entry stands. Safe. -/
  | indexOutOfRange
  /-- `BIN.STEP` with `NBITS` > 7, outside R21. Safe. -/
  | bitCounterOutOfRange
  /-- A host read of `OUT` at a position at or above its length: no such byte exists (R32). Safe. -/
  | outOutOfRange
  deriving DecidableEq, Repr

/-- Why a step has no meaning. -/
inductive Refusal where
  /-- An instruction that has no meaning yet; no arm of exec raises it. Safe. -/
  | notModelled (mnemonic : String)
  /-- A host access to a control register number above 3: "outside this spec (a model refuses it)" (R33). Raised by
  `csrWrite` and `csrRead`. Safe. -/
  | csrAbsent (reg : Nat)
  /-- A host write to `IMG` while `BUSY` = 1: the model has no such move (R106, I14). Raised by `imgHostWrite`. Safe. -/
  | imgWriteWhileBusy
  deriving DecidableEq, Repr

/-- The machine right after reset (R25, R104). `PHASE`, `STATUS`, `WIDTH`, `HEIGHT`, `OUT` are the spec's; the
registers it calls unspecified hold 0 (DESIGN CHOICE, notes/assumptions/2.md); nothing has been written to `IMG`;
the build is `Config.default` (notes/assumptions/1.md); the model's own fields are empty. -/
def State.reset : State where
  cfg := Config.default
  status := { busy := false, done := false, err := false, ecode := 0#3 }
  width := 0#16
  height := 0#16
  lw := 0#16
  lh := 0#16
  lmode := 0#2
  n := 0
  phase := .idle
  k := 0
  hist := Vector.replicate 256 0
  pal := Vector.replicate 16 { palv := false, palc := 0#8, paln := 0 }
  c := 0
  j := 0
  curv := false
  cur := 0#4
  run := 0#4
  acc := 0#8
  nbits := 0
  out := []
  img := []
  ports := { pix := 0#24, a := 0#8, b := 0#8, q := 0#8, d := 0#5, m := 0#4 }
  bench := none
  inbox := []
  seen := []

end Sys2Proof.Machine
end

