-- ==== Sys2Proof/Machine/Flags.lean ====
section
/-! DEFINITION. Every flag computation the spec gives: the `STATUS` register (spec/10_state.md R11) as the host reads
it and as acceptance (R80, R26), refusal (R98) and completion (R88) leave it. No operation computes arithmetic flags
(R24). -/

namespace Sys2Proof.Machine

/-- The `STATUS` word: bit 0 `BUSY`, bit 1 `DONE`, bit 2 `ERR`, bits 5:3 `ECODE`, bits 7:6 zero (R11). -/
def Status.word (t : Status) : Byte :=
  0#2 ++ t.ecode ++ BitVec.ofBool t.err ++ BitVec.ofBool t.done ++ BitVec.ofBool t.busy

/-- `STATUS` after an accepted START: `BUSY` = 1, the rest 0 (R26, R80). -/
def Status.accepted : Status := { busy := true, done := false, err := false, ecode := 0#3 }

/-- `STATUS` after a refusal: `ERR` = 1, `ECODE` = the code, `DONE` = 0, `BUSY` as it was (R98). -/
def Status.refusal (t : Status) (code : BitVec 3) : Status :=
  { t with err := true, ecode := code, done := false }

/-- `STATUS` after completion: `BUSY` = 0, `DONE` = 1 (R88). -/
def Status.completed (t : Status) : Status := { t with busy := false, done := true }

/-- `BUSY` as R11 defines it: `PHASE` is neither `IDLE` nor `DONE`. -/
def Phase.running : Phase → Bool
  | .idle => false
  | .done => false
  | .hdr0 => true
  | .hdr1 => true
  | .hist => true
  | .psel => true
  | .palout => true
  | .scan => true

/-- `ECODE` of `RESERVED_CMD` (R93, R94). -/
def ecodeReservedCmd : BitVec 3 := 1#3

/-- `ECODE` of `VALUE_TOO_LARGE` (R93, R95). -/
def ecodeValueTooLarge : BitVec 3 := 2#3

/-- `ECODE` of `INVALID_IMAGE_GEOMETRY` (R93, R96). -/
def ecodeInvalidImageGeometry : BitVec 3 := 3#3

end Sys2Proof.Machine
end

