-- ==== Sys2Proof/Machine/Operands.lean ====
section
/-! DEFINITION. Operand and data formats: the channels of a pixel word (spec/30_encoding.md R45), the fields of a
QuantizedColor (R46), the Run byte (R47), the bit-packed byte (R48), the header byte (R50), the mode of `LMODE`
(R43), and the pure functions of the Quantizer and the Color Matcher (R55, R67, R68). -/

namespace Sys2Proof.Machine

/-- Red channel: word[23:16] (R28, R45). -/
def pixR (p : Pixel) : Byte := p.extractLsb' 16 8

/-- Green channel: word[15:8] (R28, R45). -/
def pixG (p : Pixel) : Byte := p.extractLsb' 8 8

/-- Blue channel: word[7:0] (R28, R45). -/
def pixB (p : Pixel) : Byte := p.extractLsb' 0 8

/-- `quantize(R, G, B)` of R55, as the rule's first line writes it. -/
def quantizeRGB (r g b : Byte) : Byte :=
  ((r >>> 5) <<< 5) ||| ((g >>> 5) <<< 2) ||| (b >>> 6)

/-- `quantize` of a pixel word (R52, R55). -/
def quantize (p : Pixel) : Byte := quantizeRGB (pixR p) (pixG p) (pixB p)

/-- `red(q)` = `q[7:5]` (R46). -/
def qRed (q : Byte) : Nat := (q >>> 5).toNat

/-- `green(q)` = `q[4:2]` (R46). -/
def qGreen (q : Byte) : Nat := ((q >>> 2) &&& 7#8).toNat

/-- `blue(q)` = `q[1:0]` (R46). -/
def qBlue (q : Byte) : Nat := (q &&& 3#8).toNat

/-- `absdiff` of R6: a natural number, no wrap. -/
def absdiff (a b : Nat) : Nat := if b ≤ a then a - b else b - a

/-- `dist` of R67: the unweighted sum of the three field differences. -/
def colourDist (a b : Byte) : Nat :=
  absdiff (qRed a) (qRed b) + absdiff (qGreen a) (qGreen b) + absdiff (qBlue a) (qBlue b)

/-- The loop of R68 from index `i` on: `best` and `bestd` are the best entry so far and its distance; the comparison
is strict, so an equal distance does not replace. -/
def matchLoop (c : Byte) : List Byte → Nat → Nat → Nat → Nat
  | [], _, best, _ => best
  | p :: ps, i, best, bestd =>
    if colourDist c p < bestd then matchLoop c ps (i + 1) i (colourDist c p)
    else matchLoop c ps (i + 1) best bestd

/-- `matchIndex` of R68: starts with entry 0 as the best (D24) and scans the others in index order. -/
def matchIndex (c : Byte) : List Byte → Nibble
  | [] => 0#4
  | p :: ps => BitVec.ofNat 4 (matchLoop c ps 1 0 (colourDist c p))

/-- The Run byte `index | (count << 4)` (R47). -/
def runByte (index count : Nibble) : Byte :=
  index.setWidth 8 ||| (count.setWidth 8 <<< 4)

/-- The threshold bit of a pixel: 1 iff its red channel exceeds 127 (R76). -/
def thresholdBit (p : Pixel) : Bool := decide (127 < (pixR p).toNat)

/-- `(ACC << 1) | bit` of R76. -/
def shiftInBit (acc : Byte) (bit : Bool) : Byte := (acc <<< 1) ||| (BitVec.ofBool bit).setWidth 8

/-- The flushed byte `(acc' << (8 - n')) & 0xFF` of R76: the first collected bit lands in bit 7. -/
def packedByte (acc : Byte) (n : Nat) : Byte := acc <<< (8 - n)

/-- The low 8 bits of a dimension (R50, R81, R82). -/
def headerByte (d : Dim) : Byte := d.setWidth 8

/-- The mode an `LMODE` value stands for; 3 is none (R43). -/
def modeOf (m : BitVec 2) : Option Mode :=
  if m = 0#2 then some .normal
  else if m = 1#2 then some .binary
  else if m = 2#2 then some .compressed
  else none

/-- The command word `c` of a host write of the value `v` to `CMD`: the access moves the whole 8-bit register
(R10, R36), so `c` is the low 8 bits; notes/assumptions/11.md. -/
def commandWord (v : Nat) : Byte := BitVec.ofNat 8 v

/-- A host write to `WIDTH` or `HEIGHT` stores the low `DIM_BITS` bits of the value (R12, R13). -/
def dimOfWrite (g : Config) (v : Nat) : Dim := BitVec.ofNat 16 (v % 2 ^ g.dimBits)

end Sys2Proof.Machine
end

