-- ==== Sys2Proof/Machine/Ops.lean ====
section
/-! DEFINITION. The named operations over memories and registers that the meanings share: sequencing of outcomes, the
image memory (spec/20_memory.md R28, R29), the counter file (R30), the palette file (R31), the output stream (R32),
and taking a refusal, the engine's only trap entry (spec/60_exceptions.md R98). -/

namespace Sys2Proof.Machine

/-- What a step of this machine answers. -/
abbrev Result := Host.Outcome State Fault Refusal

/-- Go on from a next state; a stop stays a stop. -/
def andThen (o : Result) (f : State → Result) : Result :=
  match o with
  | .next s => f s
  | .fault r => .fault r
  | .refused r => .refused r

/-- Go on with a value that was read; a read that faults stops the machine. -/
def withRead {α : Type} (e : Except Fault α) (f : α → Result) : Result :=
  match e with
  | .ok a => f a
  | .error r => .fault r

/-! ### The image memory -/

/-- The word written at address `k`, if any. -/
def Img.get : List (Nat × Pixel) → Nat → Option Pixel
  | [], _ => none
  | (a, w) :: rest, k => if a = k then some w else Img.get rest k

/-- Write one word, keeping addresses strictly rising. -/
def Img.set : List (Nat × Pixel) → Nat → Pixel → List (Nat × Pixel)
  | [], k, v => [(k, v)]
  | (a, w) :: rest, k, v =>
    if k < a then (k, v) :: (a, w) :: rest
    else if k = a then (k, v) :: rest
    else (a, w) :: Img.set rest k v

/-- The canonical form of the image memory: addresses strictly rising, so one list per content.
An address that is not listed has never been written and holds no value of the list
(notes/assumptions/3.md). -/
abbrev Img.wf (m : List (Nat × Pixel)) : Prop := (m.map Prod.fst).Pairwise (· < ·)

/-- The content of pixel address `k`: the word written there, or the free power-up value (R104). -/
def imgWord (s : State) (k : Nat) : Pixel := (Img.get s.img k).getD (Config.powerUpPixel k)

/-- `MemRead(IMG, k)` (R29), the engine's only memory read: defined for `k` < `N` within the `IMG_WORDS` words;
elsewhere the fault of R102(c). -/
def memRead (s : State) (k : Nat) : Except Fault Pixel :=
  if k < s.n ∧ k < s.cfg.imgWords then .ok (imgWord s k) else .error .imgOutOfRange

/-! ### The counter file -/

/-- `HIST[q]` (R17, R30). -/
def histGet (h : Vector Nat 256) (q : Byte) : Nat := h[q.toNat]'q.isLt

/-- `HIST` with entry `q` replaced (R30). -/
def histSet (h : Vector Nat 256) (q : Byte) (v : Nat) : Vector Nat 256 := h.set q.toNat v q.isLt

/-- All 256 counters to 0: what `HIST.CLR` does (R58) and START repeats (R26). -/
def clearHist (s : State) : State := { s with hist := Vector.replicate 256 0 }

/-! ### The palette file -/

/-- All 16 slots unfilled: what `PSEL.CLR` does (R62) and START repeats (R26).
`PALC` and `PALN` then hold no value; the bits they had stay where no rule reads them (notes/assumptions/13.md). -/
def clearPal (s : State) : State :=
  { s with pal := Vector.ofFn fun i => { s.pal[i] with palv := false } }

/-- The position R63 looks for: the least `j` whose slot is unfilled or holds a smaller count. -/
def insertPos (pal : Vector PalSlot 16) (n : Nat) : Option Nat :=
  pal.toList.findIdx? fun e => !e.palv || decide (e.paln < n)

/-- Shift the entries from `j` on down by one, dropping entry 15, and put `e` at `j` (R63). -/
def shiftInsert (pal : Vector PalSlot 16) (j : Nat) (e : PalSlot) : Vector PalSlot 16 :=
  Vector.ofFn fun i => if i.val < j then pal[i] else if i.val = j then e else pal[i.val - 1]

/-- The 16 colours `PALC[0..15]`, which `MATCH` reads in one step (R31); a slot with `PALV` = 0 holds none, and
reading it is the fault of R102(a). -/
def paletteColours (s : State) : Except Fault (List Byte) :=
  if s.pal.toList.all (fun e => e.palv) = true then .ok (s.pal.toList.map fun e => e.palc)
  else .error .unsetPaletteSlot

/-! ### The run state -/

/-- Run state to its initial value: what `RLE.CLR` does (R70) and START repeats (R26). -/
def clearRun (s : State) : State := { s with curv := false, run := 15#4 }

/-- A read of `CUR`, which holds a value only while `CURV` = 1 (R20); else the fault of R102(b). -/
def readCur (s : State) : Except Fault Nibble :=
  if s.curv = true then .ok s.cur else .error .noActiveRun

/-- The bytes a flush appends: the pending run's byte if a run is active, nothing otherwise (R71, R72). -/
def pendingRun (s : State) : Except Fault (List Byte) :=
  if s.curv = true then (readCur s).map fun c => [runByte c s.run] else .ok []

/-- `differs` of R71: "none" differs from every index. -/
def runDiffers (s : State) (idx : Nibble) : Except Fault Bool :=
  if s.curv = true then (readCur s).map fun c => decide (idx ≠ c) else .ok true

/-! ### The bit accumulator -/

/-- No bits collected: what `BIN.CLR` does (R75) and START repeats (R26). -/
def clearBits (s : State) : State := { s with acc := 0#8, nbits := 0 }

/-! ### The output stream -/

/-- `emit(b)`: append one byte to `OUT`, the engine's only memory write (R6, R32); it always succeeds (R22). -/
def emit (b : Byte) (s : State) : State := { s with out := s.out ++ [b] }

/-! ### Taking a refusal, and START -/

/-- `raise Refusal(code)` (R98): `STATUS` records the cause; `PHASE`, `OUT`, `WIDTH`, `HEIGHT` and every unit
register are unchanged. There is no return from it: only reset clears `ERR` (R99, `hwReset`). -/
def takeRefusal (code : BitVec 3) (s : State) : State := { s with status := s.status.refusal code }

/-- The hardware reset (R104): "The only way to clear `STATUS.ERR`". Engine registers as in `State.reset`; `IMG` is
not affected; the build and the host's side of the model stay (notes/assumptions/18.md). -/
def hwReset (s : State) : State :=
  { State.reset with
    cfg := s.cfg, img := s.img, ports := s.ports, bench := s.bench, inbox := s.inbox, seen := s.seen }

/-- Step 6 of START (R80) with the conversion initial values of R26: latch, empty `OUT`, clear every unit. -/
def acceptStart (m : BitVec 2) (s : State) : State :=
  clearBits (clearRun (clearPal (clearHist
    { s with
      lw := s.width, lh := s.height, lmode := m, n := s.width.toNat * s.height.toNat
      out := [], k := 0, c := 0, j := 0
      status := Status.accepted, phase := .hdr0 })))

/-- The word is one of the three commands (R44, R53). -/
def isCommand (c : Byte) : Bool := (CodeWord.cmd8 c).wf

/-- A dimension that `STRICT_DIMS` = 1 refuses (R95). -/
def dimsTooLarge (s : State) : Bool :=
  s.cfg.strictDims && (decide (256 ≤ s.width.toNat) || decide (256 ≤ s.height.toNat))

/-- START (R80): the checks in their order, the first that applies taken. -/
def start (c : Byte) (s : State) : State :=
  if s.status.err = true then s
  else if s.status.busy = true then s
  else if isCommand c = false then takeRefusal ecodeReservedCmd s
  else if dimsTooLarge s = true then takeRefusal ecodeValueTooLarge s
  else if s.cfg.imgWords < s.width.toNat * s.height.toNat then takeRefusal ecodeInvalidImageGeometry s
  else acceptStart (c.extractLsb' 0 2) s

end Sys2Proof.Machine
end

