-- ==== Sys2Proof/Machine/BitPacker.lean ====
section
/-! DEFINITION. The Bit Packer: `BIN.CLR`, `BIN.STEP` (spec/45_bit_packer.md R75, R76). -/

namespace Sys2Proof.Machine

/-- `BIN.CLR` (R75). -/
def execBinClr (s : State) : Result := .next (clearBits s)

/-- `BIN.STEP` (R76): shift in the threshold bit of the pixel at scan index `K`; flush at the eighth bit and at the
last pixel. `NBITS` is at most 7 between steps (R21). -/
def execBinStep (s : State) : Result :=
  withRead (memRead s s.k) fun p =>
    if 8 ≤ s.nbits then .fault .bitCounterOutOfRange
    else if s.nbits + 1 = 8 ∨ s.k + 1 = s.n then
      .next { s with
        out := s.out ++ [packedByte (shiftInBit s.acc (thresholdBit p)) (s.nbits + 1)]
        acc := 0#8, nbits := 0, k := s.k + 1 }
    else .next { s with acc := shiftInBit s.acc (thresholdBit p), nbits := s.nbits + 1, k := s.k + 1 }

end Sys2Proof.Machine
end

