-- ==== Sys2Proof/Machine/Histogram.lean ====
section
/-! DEFINITION. The Histogram Builder: `HIST.CLR`, `HIST.ACC` (spec/41_histogram.md R58, R59). -/

namespace Sys2Proof.Machine

/-- `HIST.CLR` (R58). -/
def execHistClr (s : State) : Result := .next (clearHist s)

/-- `HIST.ACC` (R59): count the pixel at scan index `K`. A counter that would reach 2^`CNT_BITS` is the fault of
R102(d). -/
def execHistAcc (s : State) : Result :=
  withRead (memRead s s.k) fun p =>
    if histGet s.hist (quantize p) + 1 < 2 ^ s.cfg.cntBits then
      .next { s with hist := histSet s.hist (quantize p) (histGet s.hist (quantize p) + 1), k := s.k + 1 }
    else .fault .counterOverflow

end Sys2Proof.Machine
end

