-- ==== Sys2Proof/Machine/Matcher.lean ====
section
/-! DEFINITION. The Color Matcher: `DIST`, `MATCH` (spec/43_color_matcher.md R67, R68). -/

namespace Sys2Proof.Machine

/-- `DIST` (R67): the distance of the two QuantizedColors at the operand ports, at the result port. -/
def execDist (s : State) : Result :=
  .next { s with ports := { s.ports with d := BitVec.ofNat 5 (colourDist s.ports.a s.ports.b) } }

/-- `MATCH` (R68): the palette index nearest to the QuantizedColor at the operand port, at the result port; a slot
with `PALV` = 0 is the fault of R102(a). -/
def execMatchIdx (s : State) : Result :=
  withRead (paletteColours s) fun pal =>
    .next { s with ports := { s.ports with m := matchIndex s.ports.a pal } }

end Sys2Proof.Machine
end

