-- ==== Sys2Proof/Machine/ModeDispatch.lean ====
section
/-! DEFINITION. Mode Dispatch: the three commands, `HDR.W`, `HDR.H`, `PAL.OUT` (spec/47_mode_dispatch.md R80 to R86).
A command is the host's write of its word to `CMD` (R52), that is START (R80); the conversion it starts is run by the
sequencer's steps (R87, Machine/Sequencer.lean; notes/assumptions/6.md). -/

namespace Sys2Proof.Machine

/-- `ENC.NORMAL` (R84): START with the command word 0x00. -/
def execEncNormal (s : State) : Result := .next (start 0x00#8 s)

/-- `ENC.BINARY` (R85): START with the command word 0x01. -/
def execEncBinary (s : State) : Result := .next (start 0x01#8 s)

/-- `ENC.COMPRESSED` (R86): START with the command word 0x02. -/
def execEncCompressed (s : State) : Result := .next (start 0x02#8 s)

/-- `HDR.W` (R81): emit the low 8 bits of `LW`. -/
def execHdrW (s : State) : Result := .next (emit (headerByte s.lw) s)

/-- `HDR.H` (R82): emit the low 8 bits of `LH`. -/
def execHdrH (s : State) : Result := .next (emit (headerByte s.lh) s)

/-- `PAL.OUT` (R83): emit `PALC[J]`, which must be filled (R102(a)); `J` is 0 to 15 there. -/
def execPalOut (s : State) : Result :=
  if h : s.j < 16 then
    if s.pal[s.j].palv = true then .next { emit s.pal[s.j].palc s with j := s.j + 1 }
    else .fault .unsetPaletteSlot
  else .fault .indexOutOfRange

end Sys2Proof.Machine
end

