-- ==== Sys2Proof/Machine/Palette.lean ====
section
/-! DEFINITION. The Palette Selector: `PSEL.CLR`, `PSEL.INS` (spec/42_palette_selector.md R62, R63). -/

namespace Sys2Proof.Machine

/-- `PSEL.CLR` (R62). -/
def execPselClr (s : State) : Result := .next (clearPal s)

/-- The palette after the candidate colour with count `n` has been offered (R63): inserted at the position found, or
discarded where no position qualifies (D25). -/
def offerColour (pal : Vector PalSlot 16) (colour : Byte) (n : Nat) : Vector PalSlot 16 :=
  match insertPos pal n with
  | some j => shiftInsert pal j { palv := true, palc := colour, paln := n }
  | none => pal

/-- `PSEL.INS` (R63): offer colour `C` with its count; `C` is 0 to 255 there, and `HIST` has no other entry. -/
def execPselIns (s : State) : Result :=
  if s.c < 256 then
    .next { s with
      pal := offerColour s.pal (BitVec.ofNat 8 s.c) (histGet s.hist (BitVec.ofNat 8 s.c)), c := s.c + 1 }
  else .fault .indexOutOfRange

end Sys2Proof.Machine
end

