-- ==== Sys2Proof/Machine/Quantizer.lean ====
section
/-! DEFINITION. The Quantizer: `QUANT` (spec/40_quantizer.md R55). -/

namespace Sys2Proof.Machine

/-- `QUANT` (R55): the QuantizedColor of the RGB triple at the operand port, at the result port; no engine state is
read or written. -/
def execQuant (s : State) : Result :=
  .next { s with ports := { s.ports with q := quantize s.ports.pix } }

end Sys2Proof.Machine
end

