-- ==== Sys2Proof/Machine/RawEmitter.lean ====
section
/-! DEFINITION. The Raw Emitter: `RAW.STEP` (spec/46_raw_emitter.md R78). -/

namespace Sys2Proof.Machine

/-- `RAW.STEP` (R78): emit the quantized pixel at scan index `K`. -/
def execRawStep (s : State) : Result :=
  withRead (memRead s s.k) fun p => .next { emit (quantize p) s with k := s.k + 1 }

end Sys2Proof.Machine
end

