-- ==== Sys2Proof/Machine/RunLength.lean ====
section
/-! DEFINITION. The Run-Length Encoder: `RLE.CLR`, `RLE.STEP`, `RLE.END` (spec/44_rle_encoder.md R70 to R72). -/

namespace Sys2Proof.Machine

/-- `RLE.CLR` (R70). -/
def execRleClr (s : State) : Result := .next (clearRun s)

/-- `RLE.STEP` (R71): match the pixel at scan index `K` and extend the run, or flush it and start a new one. -/
def execRleStep (s : State) : Result :=
  withRead (memRead s s.k) fun p =>
  withRead (paletteColours s) fun pal =>
  withRead (runDiffers s (matchIndex (quantize p) pal)) fun differs =>
    if differs = true ∨ 15 ≤ s.run.toNat ∨ s.k + 1 = s.n then
      withRead (pendingRun s) fun flushed =>
        .next { s with
          out := s.out ++ flushed
          curv := true, cur := matchIndex (quantize p) pal, run := 0#4, k := s.k + 1 }
    else .next { s with run := s.run + 1#4, k := s.k + 1 }

/-- `RLE.END` (R72): nothing by default; with `FIX_FINAL_RUN` = 1 the pending run is emitted, if one is active.
R72 has the precondition `K` = `N`, which the sequencer meets. DESIGN CHOICE (notes/assumptions/8.md): it is not checked
here, so that issued on its own the operation does the same at every `K`; the spec gives no meaning there. -/
def execRleEnd (s : State) : Result :=
  if s.cfg.fixFinalRun = true then
    withRead (pendingRun s) fun flushed => .next { s with out := s.out ++ flushed }
  else .next s

end Sys2Proof.Machine
end

