-- ==== Sys2Proof/Machine/Dispatch.lean ====
section
/-! DEFINITION. One arm per row of spec/opcode_table.json. -/

namespace Sys2Proof.Machine

/-- What an instruction does to the machine. -/
def exec (i : Instr) (s : State) : Host.Outcome State Fault Refusal :=
  match i with
  | .encNormal => Sys2Proof.Machine.execEncNormal s
  | .encBinary => Sys2Proof.Machine.execEncBinary s
  | .encCompressed => Sys2Proof.Machine.execEncCompressed s
  | .quant => Sys2Proof.Machine.execQuant s
  | .histClr => Sys2Proof.Machine.execHistClr s
  | .histAcc => Sys2Proof.Machine.execHistAcc s
  | .pselClr => Sys2Proof.Machine.execPselClr s
  | .pselIns => Sys2Proof.Machine.execPselIns s
  | .dist => Sys2Proof.Machine.execDist s
  | .matchIdx => Sys2Proof.Machine.execMatchIdx s
  | .rleClr => Sys2Proof.Machine.execRleClr s
  | .rleStep => Sys2Proof.Machine.execRleStep s
  | .rleEnd => Sys2Proof.Machine.execRleEnd s
  | .binClr => Sys2Proof.Machine.execBinClr s
  | .binStep => Sys2Proof.Machine.execBinStep s
  | .rawStep => Sys2Proof.Machine.execRawStep s
  | .hdrW => Sys2Proof.Machine.execHdrW s
  | .hdrH => Sys2Proof.Machine.execHdrH s
  | .palOut => Sys2Proof.Machine.execPalOut s

end Sys2Proof.Machine
end

