-- ==== Sys2Proof/Machine/Sequencer.lean ====
section
/-! DEFINITION. The reference sequencer (spec/47_mode_dispatch.md R87, R88): the row of its table that is enabled, and
the engine step that performs it. -/

namespace Sys2Proof.Machine

/-- The loop index a row sets to 0 (R87). -/
inductive ScanIndex where
  | k
  | c
  | j
  deriving DecidableEq, Repr

/-- One row of the table of R87: the unit operation it performs, the index it clears after it, the next `PHASE`, and
whether it completes the conversion (R88). -/
structure SeqRow where
  op : Option Instr
  clears : Option ScanIndex
  next : Phase
  completes : Bool
  deriving DecidableEq, Repr

/-- The unit operation of a `SCAN` row with `K` < `N` (R87). -/
def scanOp : Mode → Instr
  | .normal => .rawStep
  | .binary => .binStep
  | .compressed => .rleStep

/-- The enabled row of R87; none while `PHASE` is `IDLE` or `DONE`. An index above its bound or `LMODE` = 3 has no row
and is a fault (R16, R19, R102(e)). -/
def seqRow (s : State) : Except Fault (Option SeqRow) :=
  match s.phase with
  | .idle => .ok none
  | .done => .ok none
  | .hdr0 => .ok (some { op := some .hdrW, clears := none, next := .hdr1, completes := false })
  | .hdr1 =>
    match modeOf s.lmode with
    | some .compressed => .ok (some { op := some .hdrH, clears := some .k, next := .hist, completes := false })
    | some _ => .ok (some { op := some .hdrH, clears := some .k, next := .scan, completes := false })
    | none => .error .illegalMode
  | .hist =>
    if s.k < s.n then .ok (some { op := some .histAcc, clears := none, next := .hist, completes := false })
    else if s.k = s.n then .ok (some { op := none, clears := some .c, next := .psel, completes := false })
    else .error .indexOutOfRange
  | .psel =>
    if s.c < 256 then .ok (some { op := some .pselIns, clears := none, next := .psel, completes := false })
    else if s.c = 256 then .ok (some { op := none, clears := some .j, next := .palout, completes := false })
    else .error .indexOutOfRange
  | .palout =>
    if s.j < 16 then .ok (some { op := some .palOut, clears := none, next := .palout, completes := false })
    else if s.j = 16 then .ok (some { op := none, clears := some .k, next := .scan, completes := false })
    else .error .indexOutOfRange
  | .scan =>
    match modeOf s.lmode with
    | none => .error .illegalMode
    | some m =>
      if s.k < s.n then .ok (some { op := some (scanOp m), clears := none, next := .scan, completes := false })
      else if s.k = s.n then
        .ok (some { op := if m = .compressed then some .rleEnd else none
                    clears := none, next := .done, completes := true })
      else .error .indexOutOfRange

/-- Set an index to 0. -/
def clearIndex (x : Option ScanIndex) (s : State) : State :=
  match x with
  | none => s
  | some .k => { s with k := 0 }
  | some .c => { s with c := 0 }
  | some .j => { s with j := 0 }

/-- What a row does after its unit operation: clear its index, move `PHASE`, and complete (R88) where it says so. -/
def applyRow (r : SeqRow) (s : State) : State :=
  { clearIndex r.clears s with
    phase := r.next
    status := if r.completes = true then s.status.completed else s.status }

/-- Perform a row's unit operation, if it has one. -/
def runOp (o : Option Instr) (s : State) : Result :=
  match o with
  | none => .next s
  | some i => exec i s

/-- One engine step (R87): the enabled row, performed whole. An idle engine has no enabled step and nothing changes
(R15, R88; notes/assumptions/5.md). -/
def engineStep (s : State) : Result :=
  match seqRow s with
  | .error f => .fault f
  | .ok none => .next s
  | .ok (some r) => andThen (runOp r.op s) fun t => .next (applyRow r t)

/-! ### Placing the sequencer before a unit operation

Used by `State.withFetchWord`: where the sequencer itself performs the operation, its position is set; where no row
performs the operation on its own, the bench slot is (notes/assumptions/10.md). -/

/-- A scan with a pixel left to read: the scan of `s` if it has one, else a one-pixel image at `K` = 0 whose word is
present. -/
def withPixel (s : State) : State :=
  let t := if s.k < s.n then s else { s with lw := 1#16, lh := 1#16, n := 1, k := 0 }
  match Img.get t.img t.k with
  | some _ => t
  | none => { t with img := Img.set t.img t.k 0#24 }

/-- All 16 slots filled, as they are whenever `MATCH` or `PAL.OUT` runs (R66(a)). -/
def withFilledPalette (s : State) : State :=
  { s with pal := Vector.ofFn fun i => { s.pal[i] with palv := true } }

/-- The sequencer at phase `p`, running, with the host leaving the next step to the engine. -/
def atPhase (p : Phase) (s : State) : State :=
  { s with
    phase := p, status := { s.status with busy := true, done := false }
    inbox := .tick :: s.inbox, bench := none }

/-- The state whose next step performs the unit operation `i`, with label `u`. -/
def placeUop (i : Instr) (u : BitVec 4) (s : State) : State :=
  match i with
  | .histAcc => atPhase .hist { withPixel s with lmode := 2#2 }
  | .pselIns => atPhase .psel { s with lmode := 2#2, c := if s.c < 256 then s.c else 0 }
  | .palOut => atPhase .palout { withFilledPalette s with lmode := 2#2, j := if s.j < 16 then s.j else 0 }
  | .rleStep => atPhase .scan { withFilledPalette (withPixel s) with lmode := 2#2 }
  | .rleEnd => atPhase .scan { s with lmode := 2#2, k := s.n }
  | .binStep => atPhase .scan { withPixel s with lmode := 1#2, nbits := if s.nbits < 8 then s.nbits else 0 }
  | .rawStep => atPhase .scan { withPixel s with lmode := 0#2 }
  | .hdrW => atPhase .hdr0 s
  | .hdrH => atPhase .hdr1 { s with lmode := if s.lmode = 3#2 then 0#2 else s.lmode }
  | .matchIdx => { withFilledPalette s with bench := some u }
  | .quant => { s with bench := some u }
  | .histClr => { s with bench := some u }
  | .pselClr => { s with bench := some u }
  | .dist => { s with bench := some u }
  | .rleClr => { s with bench := some u }
  | .binClr => { s with bench := some u }
  | .encNormal => { s with bench := some u }
  | .encBinary => { s with bench := some u }
  | .encCompressed => { s with bench := some u }

end Sys2Proof.Machine
end

