-- ==== Sys2Proof/Machine/HostMoves.lean ====
section
/-! DEFINITION. The host's moves (spec/30_encoding.md R52): control-register accesses (spec/10_state.md R10 to R13,
spec/20_memory.md R33), the image memory (R27, R106), the output stream (R32), reset (R104), waiting; and the step
that makes the oldest of them. -/

namespace Sys2Proof.Machine

/-- The host has read the value `v`. -/
def hostSees (v : Nat) (s : State) : State := { s with seen := s.seen ++ [v] }

/-- `WR reg, v`: `CMD` is START with the command word, run as the instruction it decodes to (R10, R80); `STATUS`
ignores writes (R11); `WIDTH` and `HEIGHT` keep the low `DIM_BITS` bits (R12, R13); no other register exists (R33). -/
def csrWrite (reg v : Nat) (s : State) : Result :=
  match reg with
  | 0 =>
    match decodeCmd (commandWord v) with
    | .ok i => exec i s
    | .error _ => .next (start (commandWord v) s)
  | 1 => .next s
  | 2 => .next { s with width := dimOfWrite s.cfg v }
  | 3 => .next { s with height := dimOfWrite s.cfg v }
  | r => .refused (.csrAbsent r)

/-- `RD reg`: `CMD` reads as 0 (R10); reads have no side effect on the engine (R11, R36). -/
def csrRead (reg : Nat) (s : State) : Result :=
  match reg with
  | 0 => .next (hostSees 0 s)
  | 1 => .next (hostSees s.status.word.toNat s)
  | 2 => .next (hostSees s.width.toNat s)
  | 3 => .next (hostSees s.height.toNat s)
  | r => .refused (.csrAbsent r)

/-- A host write to `IMG`: none while `BUSY` = 1 (R39, R106, I14), and only to a word the memory has. -/
def imgHostWrite (k : Nat) (w : Pixel) (s : State) : Result :=
  if s.status.busy = true then .refused .imgWriteWhileBusy
  else if k < s.cfg.imgWords then .next { s with img := Img.set s.img k w }
  else .fault .imgOutOfRange

/-- A host read of `IMG`, at any time (R27). -/
def imgHostRead (k : Nat) (s : State) : Result :=
  if k < s.cfg.imgWords then .next (hostSees (imgWord s k).toNat s) else .fault .imgOutOfRange

/-- A host read of one position of `OUT` (R32). -/
def outHostRead (i : Nat) (s : State) : Result :=
  match s.out[i]? with
  | some b => .next (hostSees b.toNat s)
  | none => .fault .outOutOfRange

/-- `WAIT` (R52): the host goes on once `DONE` or `ERR` is 1; until then it keeps waiting and the engine steps. -/
def hostWait (s : State) : Result :=
  if s.status.done = true ∨ s.status.err = true then .next s
  else engineStep { s with inbox := .wait :: s.inbox }

/-- One host move; `s` is the machine with the move already taken off the queue. -/
def hostMove (m : HostMove) (s : State) : Result :=
  match m with
  | .wr reg v => csrWrite reg v s
  | .rd reg => csrRead reg s
  | .imgWr k w => imgHostWrite k w s
  | .imgRd k => imgHostRead k s
  | .outRd i => outHostRead i s
  | .readout => .next { s with seen := s.seen ++ s.out.map BitVec.toNat }
  | .reset => .next (hwReset s)
  | .wait => hostWait s
  | .tick => engineStep s

/-- `SETDIM w, h` (R52). -/
def setDim (w h : Nat) : List HostMove := [.wr 2 w, .wr 3 h]

/-- `LOADIMG p0, p1, ...` (R52), from address `k` on. -/
def loadImg : Nat → List Pixel → List HostMove
  | _, [] => []
  | k, p :: ps => .imgWr k p :: loadImg (k + 1) ps

/-- One step: a unit operation issued on the bench runs first; else the oldest host move is made; else the engine
takes its enabled step (notes/assumptions/4.md). -/
def machineStep (s : State) : Result :=
  match s.bench with
  | some u => exec (decodeUop u) { s with bench := none }
  | none =>
    match s.inbox with
    | [] => engineStep s
    | m :: rest => hostMove m { s with inbox := rest }

/-- `s` with the code word `w` where the next step takes its instruction from: a command word as a host write to
`CMD`, a unit operation as `placeUop` says. -/
def placeWord (w : CodeWord) (s : State) : State :=
  match w with
  | .cmd8 c => { s with bench := none, inbox := .wr 0 c.toNat :: s.inbox }
  | .uop4 u => placeUop (decodeUop u) u s

end Sys2Proof.Machine
end

