-- ==== Sys2Proof/Machine/Step.lean ====
section
/-! DEFINITION. The step function. -/

namespace Sys2Proof.Machine

/-- One step of the machine. -/
def step (s : State) : Host.Outcome State Fault Refusal := machineStep s

/-- `s` with the instruction of the `nbits` bits `w` (numbered as spec/opcode_table.json numbers them) where `step`
takes its next instruction from; notes/assumptions/10.md. -/
def State.withFetchWord (s : State) (nbits w : Nat) : State := placeWord (tableCodeWord nbits w) s

end Sys2Proof.Machine
end

