-- ==== Sys2Proof/Machine/ClosedForm.lean ====
section
/-! DEFINITION. The closed functions of the spec: `buildHistogram` (spec/41_histogram.md R60), `selectPalette`
(spec/42_palette_selector.md R65), `rle` (spec/44_rle_encoder.md R73), the bit-packed payload (spec/45_bit_packer.md
R77), the raw payload (spec/46_raw_emitter.md R79) and `encode` (spec/47_mode_dispatch.md R89), each over the list of
the pixels in scan order. They are written from their own rules and share with the machine only the pure functions of
Operands.lean; R113 says the machine computes them. -/

namespace Sys2Proof.Machine

/-- The first `N` pixels of the image memory, in scan order (R28, R89). -/
def scanPixels (s : State) (n : Nat) : List Pixel := (List.range n).map (imgWord s)

/-- `buildHistogram` of R60: how many pixels quantize to the colour. -/
def buildHistogram (px : List Pixel) (c : Byte) : Nat := px.countP fun p => quantize p == c

/-- The order of R65: higher count first, equal counts by smaller colour value. -/
abbrev ranksBefore (h : Byte → Nat) (a b : Byte) : Prop := h b < h a ∨ (h a = h b ∧ a.toNat < b.toNat)

/-- The 256 colours in increasing numeric order (R64). -/
def allColours : List Byte := (List.range 256).map (BitVec.ofNat 8)

/-- `selectPalette` of R65: the first 16 colours of the order. -/
def selectPalette (h : Byte → Nat) : List Byte := (allColours.insertionSort (ranksBefore h)).take 16

/-- The scan of R73 from a run state (`cur`, `run`) on; the last pixel is the one with none after it. -/
def rleFrom (fix : Bool) : List Nibble → Option Nibble → Nat → List Byte
  | [], cur, run =>
    match cur with
    | some c => if fix = true then [runByte c (BitVec.ofNat 4 run)] else []
    | none => []
  | x :: xs, cur, run =>
    match cur with
    | none => rleFrom fix xs (some x) 0
    | some c =>
      if x ≠ c ∨ 15 ≤ run ∨ xs = [] then runByte c (BitVec.ofNat 4 run) :: rleFrom fix xs (some x) 0
      else rleFrom fix xs (some c) (run + 1)

/-- `rle(idx, FIX)` of R73. -/
def rle (idx : List Nibble) (fix : Bool) : List Byte := rleFrom fix idx none 15

/-- Payload byte `i` of binary mode (R77): Σ over `j` of `t[8i + j] × 2^(7 - j)`, a missing pixel adding nothing. -/
def packedGroup (px : List Pixel) (i : Nat) : Byte :=
  BitVec.ofNat 8 (((List.range 8).map fun j =>
    match px[8 * i + j]? with
    | some p => if thresholdBit p = true then 2 ^ (7 - j) else 0
    | none => 0).sum)

/-- The binary payload: ⌈N/8⌉ bytes (R48, R77). -/
def binaryPayload (px : List Pixel) : List Byte := (List.range ((px.length + 7) / 8)).map (packedGroup px)

/-- The raw payload: one QuantizedColor per pixel (R79). -/
def rawPayload (px : List Pixel) : List Byte := px.map quantize

/-- The palette indices of the pixels (R73, R89). -/
def matchIndices (px : List Pixel) (pal : List Byte) : List Nibble := px.map fun p => matchIndex (quantize p) pal

/-- `encode(W, H, img, mode)` of R89, for either value of `FIX_FINAL_RUN`. -/
def encodeStream (fix : Bool) (w h : Nat) (px : List Pixel) (m : Mode) : List Byte :=
  [BitVec.ofNat 8 (w % 256), BitVec.ofNat 8 (h % 256)] ++
    match m with
    | .normal => rawPayload px
    | .binary => binaryPayload px
    | .compressed =>
      selectPalette (buildHistogram px) ++
        rle (matchIndices px (selectPalette (buildHistogram px))) fix

/-- The Run bytes decoded: `count` + 1 copies of `index` each (R47, R74(d)). -/
def expandRuns (bs : List Byte) : List Nibble :=
  bs.flatMap fun (b : Byte) => List.replicate ((b >>> 4).toNat + 1) (b.setWidth 4 : Nibble)

/-- The reinterpretation of R56, each field at the top of its channel; no unit computes it. -/
def expandColour (q : Byte) : Pixel :=
  (q &&& 0xE0#8) ++ ((q <<< 3) &&& 0xE0#8) ++ ((q <<< 6) &&& 0xC0#8)

end Sys2Proof.Machine
end

