-- ==== Sys2Proof/Safety.lean ====
section
/-! DEFINITION. The terms in which claims about runs are made: running steps, an accepted launch, the invariant of the
machine, the order of the palette, what a safe step is. -/

namespace Sys2Proof.Machine

/-- `k` steps, stopping at the first fault or refusal. -/
def runSteps : Nat → State → Result
  | 0, s => .next s
  | k + 1, s => andThen (step s) (runSteps k)

/-- The instruction `i` performed `k` times. -/
def repeatExec (i : Instr) : Nat → State → Result
  | 0, s => .next s
  | k + 1, s => andThen (exec i s) (repeatExec i k)

/-- Nothing of the model's own is pending, so the next steps are the engine's (R87). -/
def State.EngineAlone (s : State) : Prop := s.bench = none ∧ s.inbox = []

/-- START accepts a command in this state: the conditions of checks 1, 2, 4, 5 of R80, each turned away. -/
structure State.Accepts (s : State) : Prop where
  noError : s.status.err = false
  notBusy : s.status.busy = false
  dimsAllowed : s.cfg.strictDims = true → s.width.toNat < 256 ∧ s.height.toNat < 256
  imageFits : s.width.toNat * s.height.toNat ≤ s.cfg.imgWords

/-- The dimension registers hold values of `DIM_BITS` bits in a build R4 allows (R12, R13). -/
structure State.DimsFit (s : State) : Prop where
  buildOk : s.cfg.wf = true
  width : s.width.toNat < 2 ^ s.cfg.dimBits
  height : s.height.toNat < 2 ^ s.cfg.dimBits

/-- The command that runs a mode (R43). -/
def commandOf : Mode → Instr
  | .normal => .encNormal
  | .binary => .encBinary
  | .compressed => .encCompressed

/-- The word a mode's command writes to `CMD` (R43). -/
def wordOf : Mode → Byte
  | .normal => 0x00#8
  | .binary => 0x01#8
  | .compressed => 0x02#8

/-- The engine steps of a conversion of `n` pixels, from the accepted START to `DONE` (R111). -/
def conversionSteps (m : Mode) (n : Nat) : Nat :=
  match m with
  | .normal => n + 3
  | .binary => n + 3
  | .compressed => 2 * n + 278

/-- The stream a launch from `s` in mode `m` produces (R89). -/
def launchStream (s : State) (m : Mode) : List Byte :=
  encodeStream s.cfg.fixFinalRun s.width.toNat s.height.toNat
    (scanPixels s (s.width.toNat * s.height.toNat)) m

/-- What the spec says holds between any two steps of a machine whose unit operations only the sequencer issues:
register ranges (R4, R12 to R16, R19, R21), `STATUS` (R11, R93, R98), the canonical image memory, and what each phase
finds in the counter file and the palette (R17, R18, R26, R66). -/
structure State.Inv (s : State) : Prop where
  buildOk : s.cfg.wf = true
  widthFits : s.width.toNat < 2 ^ s.cfg.dimBits
  heightFits : s.height.toNat < 2 ^ s.cfg.dimBits
  lwFits : s.lw.toNat < 2 ^ s.cfg.dimBits
  lhFits : s.lh.toNat < 2 ^ s.cfg.dimBits
  nIsProduct : s.n = s.lw.toNat * s.lh.toNat
  imageFits : s.n ≤ s.cfg.imgWords
  busyIsRunning : s.status.busy = s.phase.running
  doneAtDone : s.status.done = true → s.phase = .done
  errStopped : s.status.err = true → s.status.busy = false ∧ s.status.done = false
  causeOfError : if s.status.err = true then s.status.ecode = 1#3 ∨ s.status.ecode = 2#3 ∨ s.status.ecode = 3#3
    else s.status.ecode = 0#3
  kBound : s.k ≤ s.n
  cBound : s.c ≤ 256
  jBound : s.j ≤ 16
  legalMode : s.lmode ≠ 3#2
  bitsBound : s.nbits ≤ 7
  accBound : s.acc.toNat < 2 ^ s.nbits
  imgCanonical : Img.wf s.img
  imgInRange : ∀ e ∈ s.img, e.1 < s.cfg.imgWords
  compressedPhase : s.phase = .hist ∨ s.phase = .psel ∨ s.phase = .palout → s.lmode = 2#2
  histFresh : s.phase = .hdr0 ∨ s.phase = .hdr1 → ∀ q, histGet s.hist q = 0
  histBound : s.phase = .hist → ∀ q, histGet s.hist q ≤ s.k
  palFresh : s.phase = .hdr0 ∨ s.phase = .hdr1 ∨ s.phase = .hist → ∀ i : Fin 16, s.pal[i].palv = false
  palFilling : s.phase = .psel → ∀ i : Fin 16, s.pal[i].palv = true ↔ i.val < s.c
  palFilled : s.phase = .palout ∨ (s.phase = .scan ∧ s.lmode = 2#2) → ∀ i : Fin 16, s.pal[i].palv = true
  benchEmpty : s.bench = none

/-- The palette's order while it is built and after (R18): counts non-increasing, equal counts in increasing order of
`PALC` (so filled colours are distinct), each count the histogram's, each colour already offered. -/
structure State.PaletteOrdered (s : State) : Prop where
  ordered : s.phase = .psel ∨ s.phase = .palout ∨ (s.phase = .scan ∧ s.lmode = 2#2) →
    ∀ i j : Fin 16, i < j → s.pal[j].palv = true →
      s.pal[j].paln < s.pal[i].paln ∨
        (s.pal[i].paln = s.pal[j].paln ∧ s.pal[i].palc.toNat < s.pal[j].palc.toNat)
  countsOfHist : s.phase = .psel ∨ s.phase = .palout ∨ (s.phase = .scan ∧ s.lmode = 2#2) →
    ∀ i : Fin 16, s.pal[i].palv = true → s.pal[i].paln = histGet s.hist s.pal[i].palc
  offered : s.phase = .psel → ∀ i : Fin 16, s.pal[i].palv = true → s.pal[i].palc.toNat < s.c

/-- A host move the spec's interface does not have: an image or output position that does not exist, a register
number above 3, an image write during a conversion (R32, R33, R106). -/
def State.OutsideMove (s : State) (m : HostMove) : Prop :=
  match m with
  | .wr reg _ => 3 < reg
  | .rd reg => 3 < reg
  | .imgWr k _ => s.status.busy = true ∨ s.cfg.imgWords ≤ k
  | .imgRd k => s.cfg.imgWords ≤ k
  | .outRd i => s.out.length ≤ i
  | .readout => False
  | .reset => False
  | .wait => False
  | .tick => False

end Sys2Proof.Machine
end

