-- ==== Sys2Proof/Certificates/Slice0/Obligations.lean ====
section
/-! DEFINITION. The statements for the provers, one `def Obligations.<Name> : Prop` each, from the numbered rules of
spec/. A clause that rests on a choice of the model names its log entry. -/

open Sys2Proof Sys2Proof.Machine

/-! ### Encoding -/

/-- R53, match/mask form: exactly three command words are commands and every other word is reserved. -/
def Obligations.CommandWordsDecodeOrAreReserved : Prop :=
  decodeCmd 0x00#8 = .ok .encNormal ∧ decodeCmd 0x01#8 = .ok .encBinary ∧ decodeCmd 0x02#8 = .ok .encCompressed ∧
  ∀ c : Byte, c ≠ 0x00#8 → c ≠ 0x01#8 → c ≠ 0x02#8 → decodeCmd c = .error (.reservedCommand c)

/-- R42 to R44, R54: encoding then decoding gives the instruction back, every well-formed code word is some
instruction's, and the others are rejected. -/
def Obligations.DecodeAndEncodeAgree : Prop :=
  (∀ i : Instr, i.wf = true → (encode i).wf = true ∧ decode (encode i) = .ok i) ∧
  ∀ w : CodeWord, (w.wf = true → ∃ i, decode w = .ok i ∧ encode i = w) ∧
    (w.wf = false → ∃ r, decode w = .error r)

/-- The table of R54 and the words of R43, one word of each family written out. -/
def Obligations.WordsOfTheTablesDecode : Prop :=
  decode (.cmd8 0b00000000#8) = .ok .encNormal ∧ decode (.cmd8 0b00000010#8) = .ok .encCompressed ∧
  decode (.uop4 0b0000#4) = .ok .quant ∧ decode (.uop4 0b0010#4) = .ok .histAcc ∧
  decode (.uop4 0b0100#4) = .ok .pselIns ∧ decode (.uop4 0b0110#4) = .ok .matchIdx ∧
  decode (.uop4 0b1000#4) = .ok .rleStep ∧ decode (.uop4 0b1011#4) = .ok .binStep ∧
  decode (.uop4 0b1100#4) = .ok .rawStep ∧ decode (.uop4 0b1111#4) = .ok .palOut ∧
  decode (.cmd8 0b00000011#8) = .error (.reservedCommand 0b00000011#8)

/-! ### Steps -/

/-- R10, R52, R80: a host write to `CMD` runs the instruction its word decodes to, as one step, with the move taken off
the queue (log entry 4). -/
def Obligations.WriteToCmdRunsTheDecodedCommand : Prop :=
  ∀ (s : State) (v : Nat) (rest : List HostMove) (i : Instr), s.bench = none → s.inbox = .wr 0 v :: rest →
    decodeCmd (BitVec.ofNat 8 v) = .ok i → step s = exec i { s with inbox := rest }

/-- What one step is (the model's choice, log entries 4 and 7): the unit operation whose label stands in the bench slot,
else the oldest pending host move, else the engine's enabled step. -/
def Obligations.StepMakesTheNextMove : Prop :=
  ∀ s : State,
    (∀ u, s.bench = some u → step s = exec (decodeUop u) { s with bench := none }) ∧
    (∀ m rest, s.bench = none → s.inbox = m :: rest → step s = hostMove m { s with inbox := rest }) ∧
    (s.bench = none → s.inbox = [] → step s = engineStep s)

/-- R87, R88: every row of the reference sequencer's table, as the step it is. That the step of an idle engine answers the
same state is the model's choice (log entry 5), and so is that the engine steps when no host move waits (log entry 4). -/
def Obligations.SequencerPerformsItsTable : Prop :=
  ∀ s : State, s.EngineAlone →
    ((s.phase = .idle ∨ s.phase = .done) → step s = .next s) ∧
    (s.phase = .hdr0 → step s = andThen (exec .hdrW s) fun t => .next { t with phase := .hdr1 }) ∧
    (s.phase = .hdr1 → s.lmode = 2#2 →
      step s = andThen (exec .hdrH s) fun t => .next { t with k := 0, phase := .hist }) ∧
    (s.phase = .hdr1 → s.lmode = 0#2 ∨ s.lmode = 1#2 →
      step s = andThen (exec .hdrH s) fun t => .next { t with k := 0, phase := .scan }) ∧
    (s.phase = .hist → s.k < s.n → step s = exec .histAcc s) ∧
    (s.phase = .hist → s.k = s.n → step s = .next { s with c := 0, phase := .psel }) ∧
    (s.phase = .psel → s.c < 256 → step s = exec .pselIns s) ∧
    (s.phase = .psel → s.c = 256 → step s = .next { s with j := 0, phase := .palout }) ∧
    (s.phase = .palout → s.j < 16 → step s = exec .palOut s) ∧
    (s.phase = .palout → s.j = 16 → step s = .next { s with k := 0, phase := .scan }) ∧
    (s.phase = .scan → s.k < s.n → s.lmode = 0#2 → step s = exec .rawStep s) ∧
    (s.phase = .scan → s.k < s.n → s.lmode = 1#2 → step s = exec .binStep s) ∧
    (s.phase = .scan → s.k < s.n → s.lmode = 2#2 → step s = exec .rleStep s) ∧
    (s.phase = .scan → s.k = s.n → s.lmode = 0#2 ∨ s.lmode = 1#2 →
      step s = .next { s with status := { s.status with busy := false, done := true }, phase := .done }) ∧
    (s.phase = .scan → s.k = s.n → s.lmode = 2#2 →
      step s = andThen (exec .rleEnd s) fun t =>
        .next { t with status := { t.status with busy := false, done := true }, phase := .done })

/-! ### Quantizer -/

/-- R55: `QUANT` answers the top 3, 3 and 2 bits of the channels, and changes nothing but its result port (the ports are
the model's choice, log entry 7). -/
def Obligations.QuantPacksTheTopBits : Prop :=
  decodeUop 0x0#4 = .quant ∧
  ∀ s : State, exec .quant s = .next { s with ports := { s.ports with
    q := s.ports.pix.extractLsb' 21 3 ++ s.ports.pix.extractLsb' 13 3 ++ s.ports.pix.extractLsb' 6 2 } }

/-- R56: requantizing a colour put back at the top of its channels gives the colour, whatever fills the low bits. -/
def Obligations.RequantizingGivesTheColourBack : Prop :=
  (∀ q : Byte, quantize (expandColour q) = q) ∧
  (∀ p : Pixel, quantize (expandColour (quantize p)) = quantize p) ∧
  ∀ (q : Byte) (x y : BitVec 5) (z : BitVec 6),
    quantizeRGB (q.extractLsb' 5 3 ++ x) (q.extractLsb' 2 3 ++ y) (q.extractLsb' 0 2 ++ z) = q

/-- R57 (a) to (d). -/
def Obligations.QuantizedFieldsAreTruncatedChannels : Prop :=
  (∀ r g b : Byte, (quantizeRGB r g b).getLsbD 7 = r.getLsbD 7 ∧ r.getLsbD 7 = decide (127 < r.toNat)) ∧
  (∀ p : Pixel, thresholdBit p = (quantize p).getLsbD 7) ∧
  (∀ r r' g g' b b' : Byte, r.toNat ≤ r'.toNat → g.toNat ≤ g'.toNat → b.toNat ≤ b'.toNat →
    (quantizeRGB r g b).toNat ≤ (quantizeRGB r' g b).toNat ∧
    (quantizeRGB r g b).toNat ≤ (quantizeRGB r g' b).toNat ∧
    (quantizeRGB r g b).toNat ≤ (quantizeRGB r g b').toNat) ∧
  (∀ r g b r' g' b' : Byte, quantizeRGB r g b = quantizeRGB r' g' b' ↔
    r.extractLsb' 5 3 = r'.extractLsb' 5 3 ∧ g.extractLsb' 5 3 = g'.extractLsb' 5 3 ∧
    b.extractLsb' 6 2 = b'.extractLsb' 6 2) ∧
  ∀ r g b : Byte, qRed (quantizeRGB r g b) = r.toNat / 2 ^ 5 ∧ qGreen (quantizeRGB r g b) = g.toNat / 2 ^ 5 ∧
    qBlue (quantizeRGB r g b) = b.toNat / 2 ^ 6

/-! ### Histogram Builder -/

/-- R58: every counter is 0 after `HIST.CLR`, and nothing else changes; the accepted START does the same. -/
def Obligations.HistClrZeroesEveryCounter : Prop :=
  decodeUop 0x1#4 = .histClr ∧
  (∀ s : State, ∃ h, exec .histClr s = .next { s with hist := h } ∧ ∀ q, histGet h q = 0) ∧
  ∀ (m : Mode) (s : State), s.Accepts → ∃ t, exec (commandOf m) s = .next t ∧ ∀ q, histGet t.hist q = 0

/-- R59: `HIST.ACC` adds 1 to the one counter of the quantized pixel at `K`, and `K` moves on. The last hypothesis is
what R17 guarantees in every run. -/
def Obligations.HistAccCountsOnePixel : Prop :=
  decodeUop 0x2#4 = .histAcc ∧
  ∀ s : State, s.k < s.n → s.k < s.cfg.imgWords →
    histGet s.hist (quantize (imgWord s s.k)) + 1 < 2 ^ s.cfg.cntBits →
    ∃ h, exec .histAcc s = .next { s with hist := h, k := s.k + 1 } ∧
      histGet h (quantize (imgWord s s.k)) = histGet s.hist (quantize (imgWord s s.k)) + 1 ∧
      ∀ q, q ≠ quantize (imgWord s s.k) → histGet h q = histGet s.hist q

/-- R60: the histogram pass from cleared counters ends with the closed function `buildHistogram`. -/
def Obligations.HistogramPassBuildsTheHistogram : Prop :=
  ∀ s : State, s.k = 0 → (∀ q, histGet s.hist q = 0) → s.n ≤ s.cfg.imgWords → s.n < 2 ^ s.cfg.cntBits →
    ∃ h, repeatExec .histAcc s.n s = .next { s with hist := h, k := s.n } ∧
      ∀ q, histGet h q = buildHistogram (scanPixels s s.n) q

/-- R61: the counters sum to the number of pixels, are positive exactly on colours that occur, at most min(N, 256) are
non-zero, and only the multiset of quantized pixels matters. -/
def Obligations.HistogramCountsEveryPixelOnce : Prop :=
  ∀ px : List Pixel,
    (allColours.map (buildHistogram px)).sum = px.length ∧
    (∀ c, 0 < buildHistogram px c ↔ c ∈ px.map quantize) ∧
    (allColours.countP fun c => decide (0 < buildHistogram px c)) = (px.map quantize).dedup.length ∧
    (allColours.countP fun c => decide (0 < buildHistogram px c)) ≤ min px.length 256 ∧
    ∀ px' : List Pixel, (px.map quantize).Perm (px'.map quantize) → ∀ c, buildHistogram px c = buildHistogram px' c

/-! ### Palette Selector -/

/-- R62: every slot is unfilled after `PSEL.CLR`, and nothing but the palette file changes; the accepted START does the
same. -/
def Obligations.PselClrUnfillsEverySlot : Prop :=
  decodeUop 0x3#4 = .pselClr ∧
  (∀ s : State, ∃ p : Vector PalSlot 16, exec .pselClr s = .next { s with pal := p } ∧
    ∀ i : Fin 16, p[i].palv = false) ∧
  ∀ (m : Mode) (s : State), s.Accepts → ∃ t, exec (commandOf m) s = .next t ∧ ∀ i : Fin 16, t.pal[i].palv = false

/-- R63: the candidate goes to the least slot that is unfilled or has a smaller count, later entries move down by one and
the sixteenth is dropped; where no slot qualifies the palette is unchanged; `C` moves on in both cases. -/
def Obligations.PselInsShiftsAndInserts : Prop :=
  decodeUop 0x4#4 = .pselIns ∧
  ∀ s : State, s.c < 256 →
    (∀ j : Fin 16, (s.pal[j].palv = false ∨ s.pal[j].paln < histGet s.hist (BitVec.ofNat 8 s.c)) →
      (∀ i : Fin 16, i < j → s.pal[i].palv = true ∧ histGet s.hist (BitVec.ofNat 8 s.c) ≤ s.pal[i].paln) →
      ∃ p : Vector PalSlot 16, exec .pselIns s = .next { s with pal := p, c := s.c + 1 } ∧
        ∀ i : Fin 16,
          (i < j → p[i] = s.pal[i]) ∧
          (i = j → p[i] = { palv := true, palc := BitVec.ofNat 8 s.c,
                            paln := histGet s.hist (BitVec.ofNat 8 s.c) }) ∧
          (j < i → p[i] = s.pal[i.val - 1])) ∧
    ((∀ i : Fin 16, s.pal[i].palv = true ∧ histGet s.hist (BitVec.ofNat 8 s.c) ≤ s.pal[i].paln) →
      exec .pselIns s = .next { s with c := s.c + 1 })

/-- R64, R65, R66(a): the selection pass over an unfilled palette ends with all 16 slots filled by the closed function
`selectPalette`, each with its colour's count. -/
def Obligations.SelectionPassSelectsThePalette : Prop :=
  ∀ s : State, s.c = 0 → (∀ i : Fin 16, s.pal[i].palv = false) →
    ∃ p : Vector PalSlot 16, repeatExec .pselIns 256 s = .next { s with pal := p, c := 256 } ∧
      (p.toList.map fun e => e.palc) = selectPalette (histGet s.hist) ∧
      ∀ i : Fin 16, p[i].palv = true ∧ p[i].paln = histGet s.hist p[i].palc

/-- R66 (b), (c) and the defining property of R65: sixteen distinct colours in rank order, and every other colour ranks
after all of them. -/
def Obligations.PaletteHoldsTheSixteenBestColours : Prop :=
  ∀ h : Byte → Nat,
    (selectPalette h).length = 16 ∧ (selectPalette h).Nodup ∧ (selectPalette h).Pairwise (ranksBefore h) ∧
    ∀ c : Byte, c ∉ selectPalette h → ∀ p ∈ selectPalette h, ranksBefore h p c

/-- R66 (d), (e), (f): with at least 16 colours of non-zero count every entry has one; with `d` < 16 the palette is those
`d` colours and then the 16 - `d` smallest colours that do not occur. -/
def Obligations.PaletteFillsUpWithTheSmallestAbsentColours : Prop :=
  ∀ h : Byte → Nat,
    (16 ≤ (allColours.countP fun c => decide (0 < h c)) → ∀ p ∈ selectPalette h, 0 < h p) ∧
    ((allColours.countP fun c => decide (0 < h c)) < 16 →
      ∃ front : List Byte, front.length = (allColours.countP fun c => decide (0 < h c)) ∧
        (∀ c, c ∈ front ↔ 0 < h c) ∧ front.Pairwise (ranksBefore h) ∧
        selectPalette h = front ++ (allColours.filter fun c => h c == 0).take (16 - front.length)) ∧
    (∀ c : Byte, 0 < h c → (∀ c', c' ≠ c → h c' = 0) →
      selectPalette h = c :: (allColours.filter fun c' => c' != c).take 15) ∧
    ((∀ c, h c = 0) → selectPalette h = allColours.take 16)

/-! ### Color Matcher -/

/-- R67: `DIST` is the unweighted sum of the three absolute field differences, at most 17, and is a metric (operands and
result at the model's ports, log entry 7). -/
def Obligations.DistIsTheFieldwiseMetric : Prop :=
  decodeUop 0x5#4 = .dist ∧
  (∀ s : State, ∃ d : BitVec 5, exec .dist s = .next { s with ports := { s.ports with d := d } } ∧
    d.toNat =
      ((s.ports.a.extractLsb' 5 3).toNat - (s.ports.b.extractLsb' 5 3).toNat : Int).natAbs +
      ((s.ports.a.extractLsb' 2 3).toNat - (s.ports.b.extractLsb' 2 3).toNat : Int).natAbs +
      ((s.ports.a.extractLsb' 0 2).toNat - (s.ports.b.extractLsb' 0 2).toNat : Int).natAbs ∧
    d.toNat = colourDist s.ports.a s.ports.b) ∧
  colourDist 0x00#8 0xFF#8 = 17 ∧
  ∀ a b c : Byte, colourDist a b ≤ 17 ∧ (colourDist a b = 0 ↔ a = b) ∧ colourDist a b = colourDist b a ∧
    colourDist a c ≤ colourDist a b + colourDist b c

/-- R68: `MATCH` answers the least index of minimum distance when all 16 slots are filled, and faults when one is not
(operand and result at the model's ports, log entry 7). -/
def Obligations.MatchAnswersTheFirstNearestEntry : Prop :=
  decodeUop 0x6#4 = .matchIdx ∧
  ∀ s : State,
    ((∀ i : Fin 16, s.pal[i].palv = true) →
      ∃ b : Fin 16, exec .matchIdx s = .next { s with ports := { s.ports with m := BitVec.ofNat 4 b.val } } ∧
        (∀ i : Fin 16, colourDist s.ports.a s.pal[b].palc ≤ colourDist s.ports.a s.pal[i].palc) ∧
        ∀ i : Fin 16, i < b → colourDist s.ports.a s.pal[b].palc < colourDist s.ports.a s.pal[i].palc) ∧
    ((∃ i : Fin 16, s.pal[i].palv = false) → exec .matchIdx s = .fault .unsetPaletteSlot)

/-- R69(a), R68 corner cases: a colour of the palette matches its own lowest index, so for distinct entries
`matchIndex(PALC[i])` = `i`. -/
def Obligations.PaletteMemberMatchesItself : Prop :=
  ∀ pal : List Byte, pal.length = 16 →
    (∀ c ∈ pal, (matchIndex c pal).toNat = pal.idxOf c) ∧
    (pal.Nodup → ∀ i : Fin 16, ∀ c, pal[i.val]? = some c → (matchIndex c pal).toNat = i.val)

/-! ### Run-Length Encoder -/

/-- R70: no active run and the count 15, nothing else but `CUR`, which then holds no value and of which nothing is said; the
accepted START does the same. -/
def Obligations.RleClrForgetsTheRun : Prop :=
  decodeUop 0x7#4 = .rleClr ∧
  (∀ s : State, ∃ x, exec .rleClr s = .next { s with curv := false, run := 15#4, cur := x }) ∧
  ∀ (m : Mode) (s : State), s.Accepts → ∃ t, exec (commandOf m) s = .next t ∧ t.curv = false ∧ t.run = 15#4

/-- R71: the three branches of `RLE.STEP`, the emitted byte being `CUR` + 16 x `RUN`. -/
def Obligations.RleStepFlushesOrExtends : Prop :=
  decodeUop 0x8#4 = .rleStep ∧
  ∀ s : State, s.k < s.n → s.k < s.cfg.imgWords → (∀ i : Fin 16, s.pal[i].palv = true) →
    ∀ idx, idx = matchIndex (quantize (imgWord s s.k)) (s.pal.toList.map fun e => e.palc) →
      (s.curv = false →
        exec .rleStep s = .next { s with curv := true, cur := idx, run := 0#4, k := s.k + 1 }) ∧
      (s.curv = true → (idx ≠ s.cur ∨ s.run.toNat = 15 ∨ s.k = s.n - 1) →
        ∃ b : Byte, b.toNat = s.cur.toNat + 16 * s.run.toNat ∧
          exec .rleStep s = .next { s with out := s.out ++ [b], cur := idx, run := 0#4, k := s.k + 1 }) ∧
      (s.curv = true → idx = s.cur → s.run.toNat < 15 → s.k ≠ s.n - 1 →
        ∃ r : Nibble, r.toNat = s.run.toNat + 1 ∧ exec .rleStep s = .next { s with run := r, k := s.k + 1 })

/-- R72: by default `RLE.END` does nothing; with `FIX_FINAL_RUN` = 1 it emits the pending run, if one is active.
After a scan of at least one pixel that run is the last pixel's index with count 0 (R72 corner cases). R72 speaks of
`K` = `N`; that the first three clauses hold at every `K` is the model's choice (log entry 8). -/
def Obligations.RleEndDropsOrFlushesTheLastRun : Prop :=
  decodeUop 0x9#4 = .rleEnd ∧
  ∀ s : State,
    (s.cfg.fixFinalRun = false → exec .rleEnd s = .next s) ∧
    (s.cfg.fixFinalRun = true → s.curv = false → exec .rleEnd s = .next s) ∧
    (s.cfg.fixFinalRun = true → s.curv = true →
      ∃ b : Byte, b.toNat = s.cur.toNat + 16 * s.run.toNat ∧ exec .rleEnd s = .next { s with out := s.out ++ [b] }) ∧
    (s.k = 0 → s.curv = false → 1 ≤ s.n → s.n ≤ s.cfg.imgWords → (∀ i : Fin 16, s.pal[i].palv = true) →
      ∃ t, repeatExec .rleStep s.n s = .next t ∧ t.curv = true ∧ t.run = 0#4 ∧
        t.cur = matchIndex (quantize (imgWord s (s.n - 1))) (s.pal.toList.map fun e => e.palc))

/-- R73: the run-length pass from a cleared run state appends exactly the closed function `rle` of the matched
indices. -/
def Obligations.RunLengthPassAppendsTheRuns : Prop :=
  ∀ s : State, s.k = 0 → s.curv = false → (∀ i : Fin 16, s.pal[i].palv = true) → s.n ≤ s.cfg.imgWords →
    ∃ t, andThen (repeatExec .rleStep s.n s) (exec .rleEnd) = .next t ∧ t.k = s.n ∧
      t.out = s.out ++ rle (matchIndices (scanPixels s s.n) (s.pal.toList.map fun e => e.palc)) s.cfg.fixFinalRun ∧
      t.pal = s.pal ∧ t.hist = s.hist

/-- R74 (a) to (d): the Run bytes stand for all pixels but the last (default) or all pixels (corrected variant), in
order; their number is bounded; equal neighbours occur only at the cap or at the corrected variant's final byte. -/
def Obligations.RunBytesStandForAllButTheLastPixel : Prop :=
  ∀ idx : List Nibble,
    expandRuns (rle idx false) = idx.dropLast ∧ expandRuns (rle idx true) = idx ∧
    ((rle idx false).map fun b => b.toNat / 16 + 1).sum = idx.length - 1 ∧
    ((rle idx true).map fun b => b.toNat / 16 + 1).sum = idx.length ∧
    (idx ≠ [] → (idx.length - 1 + 15) / 16 ≤ (rle idx false).length ∧ (rle idx false).length ≤ idx.length - 1) ∧
    ∀ (fix : Bool) (i : Nat) (a b : Byte), (rle idx fix)[i]? = some a → (rle idx fix)[i + 1]? = some b →
      a.toNat % 16 = b.toNat % 16 → a.toNat / 16 = 15 ∨ (fix = true ∧ i + 2 = (rle idx fix).length)

/-! ### Bit Packer -/

/-- R75: the accumulator is empty, nothing else changes; the accepted START does the same. -/
def Obligations.BinClrEmptiesTheAccumulator : Prop :=
  decodeUop 0xA#4 = .binClr ∧
  (∀ s : State, exec .binClr s = .next { s with acc := 0#8, nbits := 0 }) ∧
  ∀ (m : Mode) (s : State), s.Accepts → ∃ t, exec (commandOf m) s = .next t ∧ t.acc = 0#8 ∧ t.nbits = 0

/-- R76: the threshold bit enters at the bottom; at the eighth bit or the last pixel the byte goes out left-shifted and the
accumulator is empty. The premises on `NBITS` and `ACC` are the invariant of R21. -/
def Obligations.BinStepCollectsOrFlushes : Prop :=
  decodeUop 0xB#4 = .binStep ∧
  ∀ s : State, s.k < s.n → s.k < s.cfg.imgWords → s.nbits ≤ 7 → s.acc.toNat < 2 ^ s.nbits →
    ∀ bit : Nat, bit = (if 127 < (pixR (imgWord s s.k)).toNat then 1 else 0) →
      ((s.nbits + 1 = 8 ∨ s.k = s.n - 1) →
        ∃ b : Byte, b.toNat = (2 * s.acc.toNat + bit) * 2 ^ (8 - (s.nbits + 1)) ∧
          exec .binStep s = .next { s with out := s.out ++ [b], acc := 0#8, nbits := 0, k := s.k + 1 }) ∧
      (s.nbits + 1 ≠ 8 → s.k ≠ s.n - 1 →
        ∃ a : Byte, a.toNat = 2 * s.acc.toNat + bit ∧
          exec .binStep s = .next { s with acc := a, nbits := s.nbits + 1, k := s.k + 1 })

/-- R77: the bit-packing pass from an empty accumulator appends exactly ⌈N/8⌉ bytes, the closed form's, and leaves nothing
pending. -/
def Obligations.BitPackingPassAppendsThePackedBytes : Prop :=
  ∀ s : State, s.k = 0 → s.acc = 0#8 → s.nbits = 0 → s.n ≤ s.cfg.imgWords →
    repeatExec .binStep s.n s =
      .next { s with out := s.out ++ binaryPayload (scanPixels s s.n), acc := 0#8, nbits := 0, k := s.n }

/-! ### Raw Emitter -/

/-- R78: one quantized byte is appended and `K` moves on. -/
def Obligations.RawStepEmitsTheQuantizedPixel : Prop :=
  decodeUop 0xC#4 = .rawStep ∧
  ∀ s : State, s.k < s.n → s.k < s.cfg.imgWords →
    exec .rawStep s = .next { s with
      out := s.out ++ [quantizeRGB (pixR (imgWord s s.k)) (pixG (imgWord s s.k)) (pixB (imgWord s s.k))]
      k := s.k + 1 }

/-- R79: the raw pass appends exactly `N` bytes, byte `k` being the quantized pixel `k`. -/
def Obligations.RawPassAppendsEveryPixel : Prop :=
  ∀ s : State, s.k = 0 → s.n ≤ s.cfg.imgWords →
    repeatExec .rawStep s.n s = .next { s with out := s.out ++ rawPayload (scanPixels s s.n), k := s.n }

/-! ### Mode Dispatch -/

/-- R81: `HDR.W` appends `LW` mod 256. -/
def Obligations.HdrWEmitsTheTruncatedWidth : Prop :=
  decodeUop 0xD#4 = .hdrW ∧
  ∀ s : State, ∃ b : Byte, b.toNat = s.lw.toNat % 256 ∧ exec .hdrW s = .next { s with out := s.out ++ [b] }

/-- R82: `HDR.H` appends `LH` mod 256. -/
def Obligations.HdrHEmitsTheTruncatedHeight : Prop :=
  decodeUop 0xE#4 = .hdrH ∧
  ∀ s : State, ∃ b : Byte, b.toNat = s.lh.toNat % 256 ∧ exec .hdrH s = .next { s with out := s.out ++ [b] }

/-- R83: `PAL.OUT` appends `PALC[J]` and `J` moves on, an unfilled slot is a fault; 16 of them from `J` = 0 append the
palette in index order. -/
def Obligations.PalOutEmitsOneColour : Prop :=
  decodeUop 0xF#4 = .palOut ∧
  (∀ s : State, s.j = 0 → (∀ i : Fin 16, s.pal[i].palv = true) →
    repeatExec .palOut 16 s = .next { s with out := s.out ++ s.pal.toList.map fun e => e.palc, j := 16 }) ∧
  ∀ (s : State) (h : s.j < 16),
    (s.pal[s.j].palv = true →
      exec .palOut s = .next { s with out := s.out ++ [s.pal[s.j].palc], j := s.j + 1 }) ∧
    (s.pal[s.j].palv = false → exec .palOut s = .fault .unsetPaletteSlot)

/-- R26: an accepted command of any mode latches the launch, empties `OUT`, and initialises every unit, in one step. Nothing
is said of `CUR` and of an unfilled slot's `PALC`, `PALN`, which then hold no value. -/
def Obligations.AcceptedStartInitialisesTheConversion : Prop :=
  ∀ (m : Mode) (s : State), s.Accepts →
    ∃ (h : Vector Nat 256) (p : Vector PalSlot 16) (x : Nibble),
      exec (commandOf m) s = .next { s with
        lw := s.width, lh := s.height, lmode := (wordOf m).extractLsb' 0 2, n := s.width.toNat * s.height.toNat
        out := [], k := 0, c := 0, j := 0, hist := h, pal := p, curv := false, cur := x, run := 15#4
        acc := 0#8, nbits := 0
        status := { busy := true, done := false, err := false, ecode := 0#3 }, phase := .hdr0 } ∧
      (∀ q, histGet h q = 0) ∧ ∀ i : Fin 16, p[i].palv = false

/-- R97, R98, R112, with the conditions of R94 to R96: a command not accepted is refused with the first cause that applies; a
refusal sets `ERR` and `ECODE`, clears `DONE`, and changes nothing else; before any check a START while `ERR` = 1 or
`BUSY` = 1 is ignored. -/
def Obligations.RefusalRecordsTheFirstCause : Prop :=
  ∀ (s : State) (c : Byte),
    (s.status.err = true ∨ s.status.busy = true → hostMove (.wr 0 c.toNat) s = .next s) ∧
    (s.status.err = false → s.status.busy = false →
      (c ≠ 0x00#8 ∧ c ≠ 0x01#8 ∧ c ≠ 0x02#8 →
        hostMove (.wr 0 c.toNat) s = .next { s with
          status := { s.status with err := true, ecode := 1#3, done := false } }) ∧
      (c = 0x00#8 ∨ c = 0x01#8 ∨ c = 0x02#8 →
        (s.cfg.strictDims = true ∧ (256 ≤ s.width.toNat ∨ 256 ≤ s.height.toNat) →
          hostMove (.wr 0 c.toNat) s = .next { s with
            status := { s.status with err := true, ecode := 2#3, done := false } }) ∧
        (¬ (s.cfg.strictDims = true ∧ (256 ≤ s.width.toNat ∨ 256 ≤ s.height.toNat)) →
          s.cfg.imgWords < s.width.toNat * s.height.toNat →
          hostMove (.wr 0 c.toNat) s = .next { s with
            status := { s.status with err := true, ecode := 3#3, done := false } })))

/-- R99: `ERR` and `ECODE` stay as they are over every instruction, every engine step and every host move but a hardware
reset; every write to `CMD` is ignored meanwhile; reset clears both. -/
def Obligations.ErrorIsStickyUntilReset : Prop :=
  ∀ s : State, s.status.err = true →
    (∀ t, (∃ i, exec i s = .next t) ∨ engineStep s = .next t ∨ (∃ m, m ≠ .reset ∧ hostMove m s = .next t) →
      t.status.err = true ∧ t.status.ecode = s.status.ecode) ∧
    (∀ c : Byte, hostMove (.wr 0 c.toNat) s = .next s) ∧
    ∃ t, hostMove .reset s = .next t ∧ t.status.err = false ∧ t.status.ecode = 0#3

/-- R104: hardware reset from any state. The registers the rule leaves unspecified are not spoken of (the model's values
for them are log entry 2). Nothing but reset clears `ERR`. -/
def Obligations.ResetReturnsToIdle : Prop :=
  (State.reset.phase = .idle ∧ State.reset.status.word = 0x00#8 ∧ State.reset.width = 0#16 ∧
    State.reset.height = 0#16 ∧ State.reset.out = []) ∧
  (∀ s t : State, s.status.err = true → t.status.err = false →
    (∀ i, exec i s ≠ .next t) ∧ engineStep s ≠ .next t ∧ ∀ m, hostMove m s = .next t → m = .reset) ∧
  ∀ s : State, ∃ t, hostMove .reset s = .next t ∧ t.phase = .idle ∧ t.status.word = 0x00#8 ∧
    t.width = 0#16 ∧ t.height = 0#16 ∧ t.out = [] ∧ t.img = s.img ∧ t.cfg = s.cfg

/-! ### Host interface -/

/-- R11: where the fields of `STATUS` stand in the word, and that a host read of it (and of the other registers, R10, R12,
R13) only tells the host its value. -/
def Obligations.RegisterReadsHaveNoSideEffect : Prop :=
  (∀ t : Status, t.word.toNat =
    t.busy.toNat + 2 * t.done.toNat + 4 * t.err.toNat + 8 * t.ecode.toNat) ∧
  ∀ (s : State) (rest : List HostMove) (reg : Nat), s.bench = none → s.inbox = .rd reg :: rest →
    (reg = 0 → step s = .next { s with inbox := rest, seen := s.seen ++ [0] }) ∧
    (reg = 1 → step s = .next { s with inbox := rest, seen := s.seen ++ [s.status.word.toNat] }) ∧
    (reg = 2 → step s = .next { s with inbox := rest, seen := s.seen ++ [s.width.toNat] }) ∧
    (reg = 3 → step s = .next { s with inbox := rest, seen := s.seen ++ [s.height.toNat] }) ∧
    (4 ≤ reg → step s = .refused (.csrAbsent reg))

/-- R27, R32, R36: what a host read of `OUT` at a position, of the whole of `OUT`, and of a word of `IMG` answers, in every
state, also during a conversion. Nothing but the model's record of what the host has seen changes (log entry 15), so `OUT`,
`IMG` and every register stay as they are, and a second read answers the same: the byte is not consumed. A word nothing
has written reads as its free value (log entry 3); positions that do not exist fault (log entry 21). -/
def Obligations.StreamAndImageReadsHaveNoSideEffect : Prop :=
  ∀ s : State,
    (∀ (i : Nat) (h : i < s.out.length),
      hostMove (.outRd i) s = .next { s with seen := s.seen ++ [s.out[i].toNat] } ∧
      andThen (hostMove (.outRd i) s) (hostMove (.outRd i)) =
        .next { s with seen := s.seen ++ [s.out[i].toNat, s.out[i].toNat] }) ∧
    (∀ i, s.out.length ≤ i → hostMove (.outRd i) s = .fault .outOutOfRange) ∧
    (∃ l : List Nat, hostMove .readout s = .next { s with seen := s.seen ++ l } ∧ l.length = s.out.length ∧
      ∀ (i : Nat) (h : i < s.out.length), l[i]? = some s.out[i].toNat) ∧
    (∀ k, k < s.cfg.imgWords →
      hostMove (.imgRd k) s = .next { s with seen := s.seen ++ [(imgWord s k).toNat] } ∧
      andThen (hostMove (.imgRd k) s) (hostMove (.imgRd k)) =
        .next { s with seen := s.seen ++ [(imgWord s k).toNat, (imgWord s k).toNat] }) ∧
    (∀ k, s.cfg.imgWords ≤ k → hostMove (.imgRd k) s = .fault .imgOutOfRange)

/-- R11 to R13, R33: writes to `STATUS` are ignored, `WIDTH` and `HEIGHT` take the low `DIM_BITS` bits at any time (also
while `BUSY` = 1, with no effect on the latched launch), register numbers above 3 are refused. -/
def Obligations.DimensionWritesKeepTheLowBits : Prop :=
  ∀ (s : State) (rest : List HostMove) (reg v : Nat), s.bench = none → s.inbox = .wr reg v :: rest →
    s.cfg.wf = true →
    (reg = 1 → step s = .next { s with inbox := rest }) ∧
    (reg = 2 → ∃ d : Dim, d.toNat = v % 2 ^ s.cfg.dimBits ∧ step s = .next { s with inbox := rest, width := d }) ∧
    (reg = 3 → ∃ d : Dim, d.toNat = v % 2 ^ s.cfg.dimBits ∧ step s = .next { s with inbox := rest, height := d }) ∧
    (4 ≤ reg → step s = .refused (.csrAbsent reg))

/-- R28, R39, R106: a host write to a word the image memory has, while no conversion runs, changes that word alone and
keeps the canonical form (log entry 3); during a conversion there is no such move (log entry 14), and an address the
memory lacks faults (log entry 21). -/
def Obligations.ImageWriteChangesOneWord : Prop :=
  ∀ (s : State) (rest : List HostMove) (k : Nat) (w : Pixel), s.bench = none → s.inbox = .imgWr k w :: rest →
    (s.status.busy = false → k < s.cfg.imgWords → Img.wf s.img →
      ∃ m, step s = .next { s with inbox := rest, img := m } ∧ Img.wf m ∧
        imgWord { s with img := m } k = w ∧ ∀ k', k' ≠ k → imgWord { s with img := m } k' = imgWord s k') ∧
    (s.status.busy = true → step s = .refused .imgWriteWhileBusy) ∧
    (s.status.busy = false → s.cfg.imgWords ≤ k → step s = .fault .imgOutOfRange)

/-- R52, log entry 4: `WAIT` is over at once when `DONE` or `ERR` is 1; until then each step is an engine step and the
host keeps waiting. -/
def Obligations.WaitLetsTheEngineRun : Prop :=
  ∀ (s : State) (rest : List HostMove), s.bench = none → s.inbox = .wait :: rest →
    (s.status.done = true ∨ s.status.err = true → step s = .next { s with inbox := rest }) ∧
    (s.status.done = false → s.status.err = false → step s = engineStep s)

/-! ### Faults -/

/-- R102 (a) to (e): the conditions no accepted START reaches are faults, each under its own name. (a) is said of `MATCH`,
`PAL.OUT`, and `RLE.STEP`, which matches. -/
def Obligations.UnreachableConditionsFault : Prop :=
  (∀ s : State, s.curv = false → readCur s = .error .noActiveRun) ∧
  (∀ (s : State) (k : Nat), (s.n ≤ k ∨ s.cfg.imgWords ≤ k) → memRead s k = .error .imgOutOfRange) ∧
  (∀ s : State, (s.n ≤ s.k ∨ s.cfg.imgWords ≤ s.k) →
    exec .histAcc s = .fault .imgOutOfRange ∧ exec .rleStep s = .fault .imgOutOfRange ∧
    exec .binStep s = .fault .imgOutOfRange ∧ exec .rawStep s = .fault .imgOutOfRange) ∧
  (∀ s : State, s.k < s.n → s.k < s.cfg.imgWords → (∃ i : Fin 16, s.pal[i].palv = false) →
    exec .rleStep s = .fault .unsetPaletteSlot) ∧
  (∀ s : State, (∃ i : Fin 16, s.pal[i].palv = false) → exec .matchIdx s = .fault .unsetPaletteSlot) ∧
  (∀ (s : State) (h : s.j < 16), s.pal[s.j].palv = false → exec .palOut s = .fault .unsetPaletteSlot) ∧
  (∀ s : State, s.k < s.n → s.k < s.cfg.imgWords →
    2 ^ s.cfg.cntBits ≤ histGet s.hist (quantize (imgWord s s.k)) + 1 →
    exec .histAcc s = .fault .counterOverflow) ∧
  ∀ s : State, s.EngineAlone → s.phase = .scan → s.lmode = 3#2 → step s = .fault .illegalMode

/-! ### Frames and whole-machine rules -/

/-- R23, R107, R32, R9's owner column: no instruction writes `IMG`, `WIDTH`, `HEIGHT` or the build; every image address
reads as before; a unit operation leaves the latched launch, `PHASE` and `STATUS` alone and only appends to `OUT`. The
clauses on the model's own fields are the model's choice, no rule's: `inbox` (log entry 4), `seen` (log entry 15), `bench`
and `ports`, which only `QUANT`, `DIST`, `MATCH` change, and nothing beside them (log entry 7). The build as a constant
field is log entry 1, the list that holds `IMG` log entry 3. -/
def Obligations.InstructionsLeaveTheImageAndTheLaunchAlone : Prop :=
  ∀ (i : Instr) (s t : State), exec i s = .next t →
    t.cfg = s.cfg ∧ t.img = s.img ∧ (∀ k, imgWord t k = imgWord s k) ∧ t.width = s.width ∧ t.height = s.height ∧
    t.inbox = s.inbox ∧ t.seen = s.seen ∧ t.bench = s.bench ∧
    (i ≠ .encNormal → i ≠ .encBinary → i ≠ .encCompressed →
      t.lw = s.lw ∧ t.lh = s.lh ∧ t.lmode = s.lmode ∧ t.n = s.n ∧ t.phase = s.phase ∧ t.status = s.status ∧
      s.out <+: t.out) ∧
    (i ≠ .quant → i ≠ .dist → i ≠ .matchIdx → t.ports = s.ports) ∧
    (i = .quant ∨ i = .dist ∨ i = .matchIdx → { t with ports := s.ports } = s)

/-- R14, R22, R107, R114: while a conversion runs, no step but a hardware reset changes the latched launch, and `OUT` only
grows. R23, R106: nor does it change the image; that the model refuses every `IMG` write while `BUSY` = 1 is log entry 14. -/
def Obligations.RunningConversionKeepsItsLaunch : Prop :=
  ∀ s t : State, s.Inv → s.status.busy = true → s.inbox.head? ≠ some .reset → step s = .next t →
    t.lw = s.lw ∧ t.lh = s.lh ∧ t.lmode = s.lmode ∧ t.n = s.n ∧ t.img = s.img ∧ s.out <+: t.out

/-- R25, R104: the invariant holds right after reset. Of `PHASE`, `STATUS`, `WIDTH`, `HEIGHT` the rules say so; the registers
they leave unspecified meet it by the values the model chose (log entry 2), the build is the model's default (log entry 1),
and the canonical form of `IMG` is the model's (log entry 3). -/
def Obligations.InvariantHoldsAtReset : Prop := State.reset.Inv

/-- R11, R12 to R21, R26, R66(a): from every state that meets the invariant, every step that answers a next state keeps
it. After a RESET move the ranges of the registers R25 and R104 leave unspecified (`K` at most `N`, `LMODE` other than 3,
`ACC` below 2^`NBITS` and the like) hold by the values the model chose for them (log entries 2 and 18); the canonical form
of `IMG` is the model's (log entry 3). -/
def Obligations.EveryStepKeepsTheInvariant : Prop :=
  ∀ s t : State, s.Inv → step s = .next t → t.Inv

/-- R18, R66(b), (c): the palette's order is kept by every step, from selection to the end of the conversion. -/
def Obligations.EveryStepKeepsThePaletteOrdered : Prop :=
  ∀ s t : State, s.Inv → s.PaletteOrdered → step s = .next t → t.PaletteOrdered

/-- R91, R102: under the invariant the machine always answers a next state, unless the host makes a move its interface
does not have. -/
def Obligations.NoStepOfTheEngineFails : Prop :=
  ∀ s : State, s.Inv → (∃ t, step s = .next t) ∨ ∃ m rest, s.inbox = m :: rest ∧ s.OutsideMove m

/-! ### Conversions -/

/-- R84, R113: an accepted `ENC.NORMAL` reaches `DONE` in `N` + 3 engine steps with `OUT` = `encode`. -/
def Obligations.NormalConversionComputesEncode : Prop :=
  ∀ s : State, s.EngineAlone → s.Accepts → ∃ s1 t, exec .encNormal s = .next s1 ∧
    runSteps (conversionSteps .normal (s.width.toNat * s.height.toNat)) s1 = .next t ∧
    t.phase = .done ∧ t.status = { busy := false, done := true, err := false, ecode := 0#3 } ∧
    t.out = launchStream s .normal

/-- R85, R113: an accepted `ENC.BINARY` reaches `DONE` in `N` + 3 engine steps with `OUT` = `encode`. -/
def Obligations.BinaryConversionComputesEncode : Prop :=
  ∀ s : State, s.EngineAlone → s.Accepts → ∃ s1 t, exec .encBinary s = .next s1 ∧
    runSteps (conversionSteps .binary (s.width.toNat * s.height.toNat)) s1 = .next t ∧
    t.phase = .done ∧ t.status = { busy := false, done := true, err := false, ecode := 0#3 } ∧
    t.out = launchStream s .binary

/-- R86, R113: an accepted `ENC.COMPRESSED` reaches `DONE` in 2`N` + 278 engine steps with `OUT` = `encode`, in either
variant of the final run. -/
def Obligations.CompressedConversionComputesEncode : Prop :=
  ∀ s : State, s.EngineAlone → s.Accepts → s.DimsFit → ∃ s1 t, exec .encCompressed s = .next s1 ∧
    runSteps (conversionSteps .compressed (s.width.toNat * s.height.toNat)) s1 = .next t ∧
    t.phase = .done ∧ t.status = { busy := false, done := true, err := false, ecode := 0#3 } ∧
    t.out = launchStream s .compressed

/-- R111, R32: the step counts are exact; at every earlier step the conversion is still running and `OUT` is a prefix of
the final stream. -/
def Obligations.ConversionRunsUntilItsLastStep : Prop :=
  ∀ (m : Mode) (s s1 : State), s.EngineAlone → s.Accepts → s.DimsFit → exec (commandOf m) s = .next s1 →
    (∃ t, runSteps (conversionSteps m (s.width.toNat * s.height.toNat)) s1 = .next t ∧ t.phase = .done) ∧
    ∀ k, k < conversionSteps m (s.width.toNat * s.height.toNat) →
      ∃ u, runSteps k s1 = .next u ∧ u.status.busy = true ∧ u.phase ≠ .done ∧ u.out <+: launchStream s m

/-- R8: nothing an earlier conversion left behind influences the next one: two states that agree on the launch give the
same stream. -/
def Obligations.ConversionsAreIndependent : Prop :=
  ∀ (m : Mode) (s s' s1 s1' t t' : State), s.EngineAlone → s'.EngineAlone → s.Accepts → s'.Accepts →
    s.DimsFit → s'.cfg = s.cfg → s'.width = s.width → s'.height = s.height → s'.img = s.img →
    exec (commandOf m) s = .next s1 → exec (commandOf m) s' = .next s1' →
    runSteps (conversionSteps m (s.width.toNat * s.height.toNat)) s1 = .next t →
    runSteps (conversionSteps m (s.width.toNat * s.height.toNat)) s1' = .next t' →
    t'.out = t.out ∧ t'.status = t.status

/-- R90: the length of the output stream of each mode. -/
def Obligations.StreamLengths : Prop :=
  ∀ (w h : Nat) (px : List Pixel) (fix : Bool),
    (encodeStream fix w h px .normal).length = 2 + px.length ∧
    (encodeStream fix w h px .binary).length = 2 + (px.length + 7) / 8 ∧
    ∃ r : Nat, (encodeStream fix w h px .compressed).length =
        18 + r + (if fix = true ∧ px ≠ [] then 1 else 0) ∧
      (px.length ≤ 1 → r = 0) ∧
      (2 ≤ px.length → (px.length - 1 + 15) / 16 ≤ r ∧ r ≤ px.length - 1)
end

