-- ==== Sys2Proof/Laws/State.lean ====
section
/-! SUPPORT. One lemma per field per named update of State, each true by rfl, so that no later proof unfolds an update. -/

namespace Sys2Proof.Machine

/-! `clearHist` -/

@[simp] theorem clearHist_cfg (s : State) : (clearHist s).cfg = s.cfg := rfl
@[simp] theorem clearHist_status (s : State) : (clearHist s).status = s.status := rfl
@[simp] theorem clearHist_width (s : State) : (clearHist s).width = s.width := rfl
@[simp] theorem clearHist_height (s : State) : (clearHist s).height = s.height := rfl
@[simp] theorem clearHist_lw (s : State) : (clearHist s).lw = s.lw := rfl
@[simp] theorem clearHist_lh (s : State) : (clearHist s).lh = s.lh := rfl
@[simp] theorem clearHist_lmode (s : State) : (clearHist s).lmode = s.lmode := rfl
@[simp] theorem clearHist_n (s : State) : (clearHist s).n = s.n := rfl
@[simp] theorem clearHist_phase (s : State) : (clearHist s).phase = s.phase := rfl
@[simp] theorem clearHist_k (s : State) : (clearHist s).k = s.k := rfl
@[simp] theorem clearHist_hist (s : State) : (clearHist s).hist = Vector.replicate 256 0 := rfl
@[simp] theorem clearHist_pal (s : State) : (clearHist s).pal = s.pal := rfl
@[simp] theorem clearHist_c (s : State) : (clearHist s).c = s.c := rfl
@[simp] theorem clearHist_j (s : State) : (clearHist s).j = s.j := rfl
@[simp] theorem clearHist_curv (s : State) : (clearHist s).curv = s.curv := rfl
@[simp] theorem clearHist_cur (s : State) : (clearHist s).cur = s.cur := rfl
@[simp] theorem clearHist_run (s : State) : (clearHist s).run = s.run := rfl
@[simp] theorem clearHist_acc (s : State) : (clearHist s).acc = s.acc := rfl
@[simp] theorem clearHist_nbits (s : State) : (clearHist s).nbits = s.nbits := rfl
@[simp] theorem clearHist_out (s : State) : (clearHist s).out = s.out := rfl
@[simp] theorem clearHist_img (s : State) : (clearHist s).img = s.img := rfl
@[simp] theorem clearHist_ports (s : State) : (clearHist s).ports = s.ports := rfl
@[simp] theorem clearHist_bench (s : State) : (clearHist s).bench = s.bench := rfl
@[simp] theorem clearHist_inbox (s : State) : (clearHist s).inbox = s.inbox := rfl
@[simp] theorem clearHist_seen (s : State) : (clearHist s).seen = s.seen := rfl

/-! `clearPal` -/

@[simp] theorem clearPal_cfg (s : State) : (clearPal s).cfg = s.cfg := rfl
@[simp] theorem clearPal_status (s : State) : (clearPal s).status = s.status := rfl
@[simp] theorem clearPal_width (s : State) : (clearPal s).width = s.width := rfl
@[simp] theorem clearPal_height (s : State) : (clearPal s).height = s.height := rfl
@[simp] theorem clearPal_lw (s : State) : (clearPal s).lw = s.lw := rfl
@[simp] theorem clearPal_lh (s : State) : (clearPal s).lh = s.lh := rfl
@[simp] theorem clearPal_lmode (s : State) : (clearPal s).lmode = s.lmode := rfl
@[simp] theorem clearPal_n (s : State) : (clearPal s).n = s.n := rfl
@[simp] theorem clearPal_phase (s : State) : (clearPal s).phase = s.phase := rfl
@[simp] theorem clearPal_k (s : State) : (clearPal s).k = s.k := rfl
@[simp] theorem clearPal_hist (s : State) : (clearPal s).hist = s.hist := rfl
@[simp] theorem clearPal_pal (s : State) :
    (clearPal s).pal = Vector.ofFn fun i => { s.pal[i] with palv := false } := rfl
@[simp] theorem clearPal_c (s : State) : (clearPal s).c = s.c := rfl
@[simp] theorem clearPal_j (s : State) : (clearPal s).j = s.j := rfl
@[simp] theorem clearPal_curv (s : State) : (clearPal s).curv = s.curv := rfl
@[simp] theorem clearPal_cur (s : State) : (clearPal s).cur = s.cur := rfl
@[simp] theorem clearPal_run (s : State) : (clearPal s).run = s.run := rfl
@[simp] theorem clearPal_acc (s : State) : (clearPal s).acc = s.acc := rfl
@[simp] theorem clearPal_nbits (s : State) : (clearPal s).nbits = s.nbits := rfl
@[simp] theorem clearPal_out (s : State) : (clearPal s).out = s.out := rfl
@[simp] theorem clearPal_img (s : State) : (clearPal s).img = s.img := rfl
@[simp] theorem clearPal_ports (s : State) : (clearPal s).ports = s.ports := rfl
@[simp] theorem clearPal_bench (s : State) : (clearPal s).bench = s.bench := rfl
@[simp] theorem clearPal_inbox (s : State) : (clearPal s).inbox = s.inbox := rfl
@[simp] theorem clearPal_seen (s : State) : (clearPal s).seen = s.seen := rfl

/-! `clearRun` -/

@[simp] theorem clearRun_cfg (s : State) : (clearRun s).cfg = s.cfg := rfl
@[simp] theorem clearRun_status (s : State) : (clearRun s).status = s.status := rfl
@[simp] theorem clearRun_width (s : State) : (clearRun s).width = s.width := rfl
@[simp] theorem clearRun_height (s : State) : (clearRun s).height = s.height := rfl
@[simp] theorem clearRun_lw (s : State) : (clearRun s).lw = s.lw := rfl
@[simp] theorem clearRun_lh (s : State) : (clearRun s).lh = s.lh := rfl
@[simp] theorem clearRun_lmode (s : State) : (clearRun s).lmode = s.lmode := rfl
@[simp] theorem clearRun_n (s : State) : (clearRun s).n = s.n := rfl
@[simp] theorem clearRun_phase (s : State) : (clearRun s).phase = s.phase := rfl
@[simp] theorem clearRun_k (s : State) : (clearRun s).k = s.k := rfl
@[simp] theorem clearRun_hist (s : State) : (clearRun s).hist = s.hist := rfl
@[simp] theorem clearRun_pal (s : State) : (clearRun s).pal = s.pal := rfl
@[simp] theorem clearRun_c (s : State) : (clearRun s).c = s.c := rfl
@[simp] theorem clearRun_j (s : State) : (clearRun s).j = s.j := rfl
@[simp] theorem clearRun_curv (s : State) : (clearRun s).curv = false := rfl
@[simp] theorem clearRun_cur (s : State) : (clearRun s).cur = s.cur := rfl
@[simp] theorem clearRun_run (s : State) : (clearRun s).run = 15#4 := rfl
@[simp] theorem clearRun_acc (s : State) : (clearRun s).acc = s.acc := rfl
@[simp] theorem clearRun_nbits (s : State) : (clearRun s).nbits = s.nbits := rfl
@[simp] theorem clearRun_out (s : State) : (clearRun s).out = s.out := rfl
@[simp] theorem clearRun_img (s : State) : (clearRun s).img = s.img := rfl
@[simp] theorem clearRun_ports (s : State) : (clearRun s).ports = s.ports := rfl
@[simp] theorem clearRun_bench (s : State) : (clearRun s).bench = s.bench := rfl
@[simp] theorem clearRun_inbox (s : State) : (clearRun s).inbox = s.inbox := rfl
@[simp] theorem clearRun_seen (s : State) : (clearRun s).seen = s.seen := rfl

/-! `clearBits` -/

@[simp] theorem clearBits_cfg (s : State) : (clearBits s).cfg = s.cfg := rfl
@[simp] theorem clearBits_status (s : State) : (clearBits s).status = s.status := rfl
@[simp] theorem clearBits_width (s : State) : (clearBits s).width = s.width := rfl
@[simp] theorem clearBits_height (s : State) : (clearBits s).height = s.height := rfl
@[simp] theorem clearBits_lw (s : State) : (clearBits s).lw = s.lw := rfl
@[simp] theorem clearBits_lh (s : State) : (clearBits s).lh = s.lh := rfl
@[simp] theorem clearBits_lmode (s : State) : (clearBits s).lmode = s.lmode := rfl
@[simp] theorem clearBits_n (s : State) : (clearBits s).n = s.n := rfl
@[simp] theorem clearBits_phase (s : State) : (clearBits s).phase = s.phase := rfl
@[simp] theorem clearBits_k (s : State) : (clearBits s).k = s.k := rfl
@[simp] theorem clearBits_hist (s : State) : (clearBits s).hist = s.hist := rfl
@[simp] theorem clearBits_pal (s : State) : (clearBits s).pal = s.pal := rfl
@[simp] theorem clearBits_c (s : State) : (clearBits s).c = s.c := rfl
@[simp] theorem clearBits_j (s : State) : (clearBits s).j = s.j := rfl
@[simp] theorem clearBits_curv (s : State) : (clearBits s).curv = s.curv := rfl
@[simp] theorem clearBits_cur (s : State) : (clearBits s).cur = s.cur := rfl
@[simp] theorem clearBits_run (s : State) : (clearBits s).run = s.run := rfl
@[simp] theorem clearBits_acc (s : State) : (clearBits s).acc = 0#8 := rfl
@[simp] theorem clearBits_nbits (s : State) : (clearBits s).nbits = 0 := rfl
@[simp] theorem clearBits_out (s : State) : (clearBits s).out = s.out := rfl
@[simp] theorem clearBits_img (s : State) : (clearBits s).img = s.img := rfl
@[simp] theorem clearBits_ports (s : State) : (clearBits s).ports = s.ports := rfl
@[simp] theorem clearBits_bench (s : State) : (clearBits s).bench = s.bench := rfl
@[simp] theorem clearBits_inbox (s : State) : (clearBits s).inbox = s.inbox := rfl
@[simp] theorem clearBits_seen (s : State) : (clearBits s).seen = s.seen := rfl

/-! `emit` -/

@[simp] theorem emit_cfg (b : Byte) (s : State) : (emit b s).cfg = s.cfg := rfl
@[simp] theorem emit_status (b : Byte) (s : State) : (emit b s).status = s.status := rfl
@[simp] theorem emit_width (b : Byte) (s : State) : (emit b s).width = s.width := rfl
@[simp] theorem emit_height (b : Byte) (s : State) : (emit b s).height = s.height := rfl
@[simp] theorem emit_lw (b : Byte) (s : State) : (emit b s).lw = s.lw := rfl
@[simp] theorem emit_lh (b : Byte) (s : State) : (emit b s).lh = s.lh := rfl
@[simp] theorem emit_lmode (b : Byte) (s : State) : (emit b s).lmode = s.lmode := rfl
@[simp] theorem emit_n (b : Byte) (s : State) : (emit b s).n = s.n := rfl
@[simp] theorem emit_phase (b : Byte) (s : State) : (emit b s).phase = s.phase := rfl
@[simp] theorem emit_k (b : Byte) (s : State) : (emit b s).k = s.k := rfl
@[simp] theorem emit_hist (b : Byte) (s : State) : (emit b s).hist = s.hist := rfl
@[simp] theorem emit_pal (b : Byte) (s : State) : (emit b s).pal = s.pal := rfl
@[simp] theorem emit_c (b : Byte) (s : State) : (emit b s).c = s.c := rfl
@[simp] theorem emit_j (b : Byte) (s : State) : (emit b s).j = s.j := rfl
@[simp] theorem emit_curv (b : Byte) (s : State) : (emit b s).curv = s.curv := rfl
@[simp] theorem emit_cur (b : Byte) (s : State) : (emit b s).cur = s.cur := rfl
@[simp] theorem emit_run (b : Byte) (s : State) : (emit b s).run = s.run := rfl
@[simp] theorem emit_acc (b : Byte) (s : State) : (emit b s).acc = s.acc := rfl
@[simp] theorem emit_nbits (b : Byte) (s : State) : (emit b s).nbits = s.nbits := rfl
@[simp] theorem emit_out (b : Byte) (s : State) : (emit b s).out = s.out ++ [b] := rfl
@[simp] theorem emit_img (b : Byte) (s : State) : (emit b s).img = s.img := rfl
@[simp] theorem emit_ports (b : Byte) (s : State) : (emit b s).ports = s.ports := rfl
@[simp] theorem emit_bench (b : Byte) (s : State) : (emit b s).bench = s.bench := rfl
@[simp] theorem emit_inbox (b : Byte) (s : State) : (emit b s).inbox = s.inbox := rfl
@[simp] theorem emit_seen (b : Byte) (s : State) : (emit b s).seen = s.seen := rfl

/-! `takeRefusal` -/

@[simp] theorem takeRefusal_cfg (x : BitVec 3) (s : State) : (takeRefusal x s).cfg = s.cfg := rfl
@[simp] theorem takeRefusal_status (x : BitVec 3) (s : State) : (takeRefusal x s).status = s.status.refusal x := rfl
@[simp] theorem takeRefusal_width (x : BitVec 3) (s : State) : (takeRefusal x s).width = s.width := rfl
@[simp] theorem takeRefusal_height (x : BitVec 3) (s : State) : (takeRefusal x s).height = s.height := rfl
@[simp] theorem takeRefusal_lw (x : BitVec 3) (s : State) : (takeRefusal x s).lw = s.lw := rfl
@[simp] theorem takeRefusal_lh (x : BitVec 3) (s : State) : (takeRefusal x s).lh = s.lh := rfl
@[simp] theorem takeRefusal_lmode (x : BitVec 3) (s : State) : (takeRefusal x s).lmode = s.lmode := rfl
@[simp] theorem takeRefusal_n (x : BitVec 3) (s : State) : (takeRefusal x s).n = s.n := rfl
@[simp] theorem takeRefusal_phase (x : BitVec 3) (s : State) : (takeRefusal x s).phase = s.phase := rfl
@[simp] theorem takeRefusal_k (x : BitVec 3) (s : State) : (takeRefusal x s).k = s.k := rfl
@[simp] theorem takeRefusal_hist (x : BitVec 3) (s : State) : (takeRefusal x s).hist = s.hist := rfl
@[simp] theorem takeRefusal_pal (x : BitVec 3) (s : State) : (takeRefusal x s).pal = s.pal := rfl
@[simp] theorem takeRefusal_c (x : BitVec 3) (s : State) : (takeRefusal x s).c = s.c := rfl
@[simp] theorem takeRefusal_j (x : BitVec 3) (s : State) : (takeRefusal x s).j = s.j := rfl
@[simp] theorem takeRefusal_curv (x : BitVec 3) (s : State) : (takeRefusal x s).curv = s.curv := rfl
@[simp] theorem takeRefusal_cur (x : BitVec 3) (s : State) : (takeRefusal x s).cur = s.cur := rfl
@[simp] theorem takeRefusal_run (x : BitVec 3) (s : State) : (takeRefusal x s).run = s.run := rfl
@[simp] theorem takeRefusal_acc (x : BitVec 3) (s : State) : (takeRefusal x s).acc = s.acc := rfl
@[simp] theorem takeRefusal_nbits (x : BitVec 3) (s : State) : (takeRefusal x s).nbits = s.nbits := rfl
@[simp] theorem takeRefusal_out (x : BitVec 3) (s : State) : (takeRefusal x s).out = s.out := rfl
@[simp] theorem takeRefusal_img (x : BitVec 3) (s : State) : (takeRefusal x s).img = s.img := rfl
@[simp] theorem takeRefusal_ports (x : BitVec 3) (s : State) : (takeRefusal x s).ports = s.ports := rfl
@[simp] theorem takeRefusal_bench (x : BitVec 3) (s : State) : (takeRefusal x s).bench = s.bench := rfl
@[simp] theorem takeRefusal_inbox (x : BitVec 3) (s : State) : (takeRefusal x s).inbox = s.inbox := rfl
@[simp] theorem takeRefusal_seen (x : BitVec 3) (s : State) : (takeRefusal x s).seen = s.seen := rfl

/-! `hostSees` -/

@[simp] theorem hostSees_cfg (v : Nat) (s : State) : (hostSees v s).cfg = s.cfg := rfl
@[simp] theorem hostSees_status (v : Nat) (s : State) : (hostSees v s).status = s.status := rfl
@[simp] theorem hostSees_width (v : Nat) (s : State) : (hostSees v s).width = s.width := rfl
@[simp] theorem hostSees_height (v : Nat) (s : State) : (hostSees v s).height = s.height := rfl
@[simp] theorem hostSees_lw (v : Nat) (s : State) : (hostSees v s).lw = s.lw := rfl
@[simp] theorem hostSees_lh (v : Nat) (s : State) : (hostSees v s).lh = s.lh := rfl
@[simp] theorem hostSees_lmode (v : Nat) (s : State) : (hostSees v s).lmode = s.lmode := rfl
@[simp] theorem hostSees_n (v : Nat) (s : State) : (hostSees v s).n = s.n := rfl
@[simp] theorem hostSees_phase (v : Nat) (s : State) : (hostSees v s).phase = s.phase := rfl
@[simp] theorem hostSees_k (v : Nat) (s : State) : (hostSees v s).k = s.k := rfl
@[simp] theorem hostSees_hist (v : Nat) (s : State) : (hostSees v s).hist = s.hist := rfl
@[simp] theorem hostSees_pal (v : Nat) (s : State) : (hostSees v s).pal = s.pal := rfl
@[simp] theorem hostSees_c (v : Nat) (s : State) : (hostSees v s).c = s.c := rfl
@[simp] theorem hostSees_j (v : Nat) (s : State) : (hostSees v s).j = s.j := rfl
@[simp] theorem hostSees_curv (v : Nat) (s : State) : (hostSees v s).curv = s.curv := rfl
@[simp] theorem hostSees_cur (v : Nat) (s : State) : (hostSees v s).cur = s.cur := rfl
@[simp] theorem hostSees_run (v : Nat) (s : State) : (hostSees v s).run = s.run := rfl
@[simp] theorem hostSees_acc (v : Nat) (s : State) : (hostSees v s).acc = s.acc := rfl
@[simp] theorem hostSees_nbits (v : Nat) (s : State) : (hostSees v s).nbits = s.nbits := rfl
@[simp] theorem hostSees_out (v : Nat) (s : State) : (hostSees v s).out = s.out := rfl
@[simp] theorem hostSees_img (v : Nat) (s : State) : (hostSees v s).img = s.img := rfl
@[simp] theorem hostSees_ports (v : Nat) (s : State) : (hostSees v s).ports = s.ports := rfl
@[simp] theorem hostSees_bench (v : Nat) (s : State) : (hostSees v s).bench = s.bench := rfl
@[simp] theorem hostSees_inbox (v : Nat) (s : State) : (hostSees v s).inbox = s.inbox := rfl
@[simp] theorem hostSees_seen (v : Nat) (s : State) : (hostSees v s).seen = s.seen ++ [v] := rfl

/-! `acceptStart` -/

@[simp] theorem acceptStart_cfg (m : BitVec 2) (s : State) : (acceptStart m s).cfg = s.cfg := rfl
@[simp] theorem acceptStart_status (m : BitVec 2) (s : State) : (acceptStart m s).status = Status.accepted := rfl
@[simp] theorem acceptStart_width (m : BitVec 2) (s : State) : (acceptStart m s).width = s.width := rfl
@[simp] theorem acceptStart_height (m : BitVec 2) (s : State) : (acceptStart m s).height = s.height := rfl
@[simp] theorem acceptStart_lw (m : BitVec 2) (s : State) : (acceptStart m s).lw = s.width := rfl
@[simp] theorem acceptStart_lh (m : BitVec 2) (s : State) : (acceptStart m s).lh = s.height := rfl
@[simp] theorem acceptStart_lmode (m : BitVec 2) (s : State) : (acceptStart m s).lmode = m := rfl
@[simp] theorem acceptStart_n (m : BitVec 2) (s : State) : (acceptStart m s).n = s.width.toNat * s.height.toNat := rfl
@[simp] theorem acceptStart_phase (m : BitVec 2) (s : State) : (acceptStart m s).phase = Phase.hdr0 := rfl
@[simp] theorem acceptStart_k (m : BitVec 2) (s : State) : (acceptStart m s).k = 0 := rfl
@[simp] theorem acceptStart_hist (m : BitVec 2) (s : State) : (acceptStart m s).hist = Vector.replicate 256 0 := rfl
@[simp] theorem acceptStart_pal (m : BitVec 2) (s : State) :
    (acceptStart m s).pal = Vector.ofFn fun i => { s.pal[i] with palv := false } := rfl
@[simp] theorem acceptStart_c (m : BitVec 2) (s : State) : (acceptStart m s).c = 0 := rfl
@[simp] theorem acceptStart_j (m : BitVec 2) (s : State) : (acceptStart m s).j = 0 := rfl
@[simp] theorem acceptStart_curv (m : BitVec 2) (s : State) : (acceptStart m s).curv = false := rfl
@[simp] theorem acceptStart_cur (m : BitVec 2) (s : State) : (acceptStart m s).cur = s.cur := rfl
@[simp] theorem acceptStart_run (m : BitVec 2) (s : State) : (acceptStart m s).run = 15#4 := rfl
@[simp] theorem acceptStart_acc (m : BitVec 2) (s : State) : (acceptStart m s).acc = 0#8 := rfl
@[simp] theorem acceptStart_nbits (m : BitVec 2) (s : State) : (acceptStart m s).nbits = 0 := rfl
@[simp] theorem acceptStart_out (m : BitVec 2) (s : State) : (acceptStart m s).out = [] := rfl
@[simp] theorem acceptStart_img (m : BitVec 2) (s : State) : (acceptStart m s).img = s.img := rfl
@[simp] theorem acceptStart_ports (m : BitVec 2) (s : State) : (acceptStart m s).ports = s.ports := rfl
@[simp] theorem acceptStart_bench (m : BitVec 2) (s : State) : (acceptStart m s).bench = s.bench := rfl
@[simp] theorem acceptStart_inbox (m : BitVec 2) (s : State) : (acceptStart m s).inbox = s.inbox := rfl
@[simp] theorem acceptStart_seen (m : BitVec 2) (s : State) : (acceptStart m s).seen = s.seen := rfl

/-! `hwReset` -/

@[simp] theorem hwReset_cfg (s : State) : (hwReset s).cfg = s.cfg := rfl
@[simp] theorem hwReset_status (s : State) : (hwReset s).status = State.reset.status := rfl
@[simp] theorem hwReset_width (s : State) : (hwReset s).width = State.reset.width := rfl
@[simp] theorem hwReset_height (s : State) : (hwReset s).height = State.reset.height := rfl
@[simp] theorem hwReset_lw (s : State) : (hwReset s).lw = State.reset.lw := rfl
@[simp] theorem hwReset_lh (s : State) : (hwReset s).lh = State.reset.lh := rfl
@[simp] theorem hwReset_lmode (s : State) : (hwReset s).lmode = State.reset.lmode := rfl
@[simp] theorem hwReset_n (s : State) : (hwReset s).n = State.reset.n := rfl
@[simp] theorem hwReset_phase (s : State) : (hwReset s).phase = State.reset.phase := rfl
@[simp] theorem hwReset_k (s : State) : (hwReset s).k = State.reset.k := rfl
@[simp] theorem hwReset_hist (s : State) : (hwReset s).hist = State.reset.hist := rfl
@[simp] theorem hwReset_pal (s : State) : (hwReset s).pal = State.reset.pal := rfl
@[simp] theorem hwReset_c (s : State) : (hwReset s).c = State.reset.c := rfl
@[simp] theorem hwReset_j (s : State) : (hwReset s).j = State.reset.j := rfl
@[simp] theorem hwReset_curv (s : State) : (hwReset s).curv = State.reset.curv := rfl
@[simp] theorem hwReset_cur (s : State) : (hwReset s).cur = State.reset.cur := rfl
@[simp] theorem hwReset_run (s : State) : (hwReset s).run = State.reset.run := rfl
@[simp] theorem hwReset_acc (s : State) : (hwReset s).acc = State.reset.acc := rfl
@[simp] theorem hwReset_nbits (s : State) : (hwReset s).nbits = State.reset.nbits := rfl
@[simp] theorem hwReset_out (s : State) : (hwReset s).out = State.reset.out := rfl
@[simp] theorem hwReset_img (s : State) : (hwReset s).img = s.img := rfl
@[simp] theorem hwReset_ports (s : State) : (hwReset s).ports = s.ports := rfl
@[simp] theorem hwReset_bench (s : State) : (hwReset s).bench = s.bench := rfl
@[simp] theorem hwReset_inbox (s : State) : (hwReset s).inbox = s.inbox := rfl
@[simp] theorem hwReset_seen (s : State) : (hwReset s).seen = s.seen := rfl

/-! `clearIndex` and `applyRow` -/

@[simp] theorem clearIndex_cfg (x : Option ScanIndex) (s : State) : (clearIndex x s).cfg = s.cfg := by
  rcases x with _ | _ | _ | _ <;> rfl
@[simp] theorem clearIndex_status (x : Option ScanIndex) (s : State) : (clearIndex x s).status = s.status := by
  rcases x with _ | _ | _ | _ <;> rfl
@[simp] theorem clearIndex_width (x : Option ScanIndex) (s : State) : (clearIndex x s).width = s.width := by
  rcases x with _ | _ | _ | _ <;> rfl
@[simp] theorem clearIndex_height (x : Option ScanIndex) (s : State) : (clearIndex x s).height = s.height := by
  rcases x with _ | _ | _ | _ <;> rfl
@[simp] theorem clearIndex_lw (x : Option ScanIndex) (s : State) : (clearIndex x s).lw = s.lw := by
  rcases x with _ | _ | _ | _ <;> rfl
@[simp] theorem clearIndex_lh (x : Option ScanIndex) (s : State) : (clearIndex x s).lh = s.lh := by
  rcases x with _ | _ | _ | _ <;> rfl
@[simp] theorem clearIndex_lmode (x : Option ScanIndex) (s : State) : (clearIndex x s).lmode = s.lmode := by
  rcases x with _ | _ | _ | _ <;> rfl
@[simp] theorem clearIndex_n (x : Option ScanIndex) (s : State) : (clearIndex x s).n = s.n := by
  rcases x with _ | _ | _ | _ <;> rfl
@[simp] theorem clearIndex_phase (x : Option ScanIndex) (s : State) : (clearIndex x s).phase = s.phase := by
  rcases x with _ | _ | _ | _ <;> rfl
@[simp] theorem clearIndex_hist (x : Option ScanIndex) (s : State) : (clearIndex x s).hist = s.hist := by
  rcases x with _ | _ | _ | _ <;> rfl
@[simp] theorem clearIndex_pal (x : Option ScanIndex) (s : State) : (clearIndex x s).pal = s.pal := by
  rcases x with _ | _ | _ | _ <;> rfl
@[simp] theorem clearIndex_curv (x : Option ScanIndex) (s : State) : (clearIndex x s).curv = s.curv := by
  rcases x with _ | _ | _ | _ <;> rfl
@[simp] theorem clearIndex_cur (x : Option ScanIndex) (s : State) : (clearIndex x s).cur = s.cur := by
  rcases x with _ | _ | _ | _ <;> rfl
@[simp] theorem clearIndex_run (x : Option ScanIndex) (s : State) : (clearIndex x s).run = s.run := by
  rcases x with _ | _ | _ | _ <;> rfl
@[simp] theorem clearIndex_acc (x : Option ScanIndex) (s : State) : (clearIndex x s).acc = s.acc := by
  rcases x with _ | _ | _ | _ <;> rfl
@[simp] theorem clearIndex_nbits (x : Option ScanIndex) (s : State) : (clearIndex x s).nbits = s.nbits := by
  rcases x with _ | _ | _ | _ <;> rfl
@[simp] theorem clearIndex_out (x : Option ScanIndex) (s : State) : (clearIndex x s).out = s.out := by
  rcases x with _ | _ | _ | _ <;> rfl
@[simp] theorem clearIndex_img (x : Option ScanIndex) (s : State) : (clearIndex x s).img = s.img := by
  rcases x with _ | _ | _ | _ <;> rfl
@[simp] theorem clearIndex_ports (x : Option ScanIndex) (s : State) : (clearIndex x s).ports = s.ports := by
  rcases x with _ | _ | _ | _ <;> rfl
@[simp] theorem clearIndex_bench (x : Option ScanIndex) (s : State) : (clearIndex x s).bench = s.bench := by
  rcases x with _ | _ | _ | _ <;> rfl
@[simp] theorem clearIndex_inbox (x : Option ScanIndex) (s : State) : (clearIndex x s).inbox = s.inbox := by
  rcases x with _ | _ | _ | _ <;> rfl
@[simp] theorem clearIndex_seen (x : Option ScanIndex) (s : State) : (clearIndex x s).seen = s.seen := by
  rcases x with _ | _ | _ | _ <;> rfl
@[simp] theorem applyRow_cfg (r : SeqRow) (s : State) : (applyRow r s).cfg = s.cfg := by simp [applyRow]
@[simp] theorem applyRow_status (r : SeqRow) (s : State) :
    (applyRow r s).status = if r.completes = true then s.status.completed else s.status := rfl
@[simp] theorem applyRow_width (r : SeqRow) (s : State) : (applyRow r s).width = s.width := by simp [applyRow]
@[simp] theorem applyRow_height (r : SeqRow) (s : State) : (applyRow r s).height = s.height := by simp [applyRow]
@[simp] theorem applyRow_lw (r : SeqRow) (s : State) : (applyRow r s).lw = s.lw := by simp [applyRow]
@[simp] theorem applyRow_lh (r : SeqRow) (s : State) : (applyRow r s).lh = s.lh := by simp [applyRow]
@[simp] theorem applyRow_lmode (r : SeqRow) (s : State) : (applyRow r s).lmode = s.lmode := by simp [applyRow]
@[simp] theorem applyRow_n (r : SeqRow) (s : State) : (applyRow r s).n = s.n := by simp [applyRow]
@[simp] theorem applyRow_phase (r : SeqRow) (s : State) : (applyRow r s).phase = r.next := rfl
@[simp] theorem applyRow_k (r : SeqRow) (s : State) : (applyRow r s).k = (clearIndex r.clears s).k := rfl
@[simp] theorem applyRow_hist (r : SeqRow) (s : State) : (applyRow r s).hist = s.hist := by simp [applyRow]
@[simp] theorem applyRow_pal (r : SeqRow) (s : State) : (applyRow r s).pal = s.pal := by simp [applyRow]
@[simp] theorem applyRow_c (r : SeqRow) (s : State) : (applyRow r s).c = (clearIndex r.clears s).c := rfl
@[simp] theorem applyRow_j (r : SeqRow) (s : State) : (applyRow r s).j = (clearIndex r.clears s).j := rfl
@[simp] theorem applyRow_curv (r : SeqRow) (s : State) : (applyRow r s).curv = s.curv := by simp [applyRow]
@[simp] theorem applyRow_cur (r : SeqRow) (s : State) : (applyRow r s).cur = s.cur := by simp [applyRow]
@[simp] theorem applyRow_run (r : SeqRow) (s : State) : (applyRow r s).run = s.run := by simp [applyRow]
@[simp] theorem applyRow_acc (r : SeqRow) (s : State) : (applyRow r s).acc = s.acc := by simp [applyRow]
@[simp] theorem applyRow_nbits (r : SeqRow) (s : State) : (applyRow r s).nbits = s.nbits := by simp [applyRow]
@[simp] theorem applyRow_out (r : SeqRow) (s : State) : (applyRow r s).out = s.out := by simp [applyRow]
@[simp] theorem applyRow_img (r : SeqRow) (s : State) : (applyRow r s).img = s.img := by simp [applyRow]
@[simp] theorem applyRow_ports (r : SeqRow) (s : State) : (applyRow r s).ports = s.ports := by simp [applyRow]
@[simp] theorem applyRow_bench (r : SeqRow) (s : State) : (applyRow r s).bench = s.bench := by simp [applyRow]
@[simp] theorem applyRow_inbox (r : SeqRow) (s : State) : (applyRow r s).inbox = s.inbox := by simp [applyRow]
@[simp] theorem applyRow_seen (r : SeqRow) (s : State) : (applyRow r s).seen = s.seen := by simp [applyRow]
@[simp] theorem clearIndex_none_k (s : State) : (clearIndex none s).k = s.k := rfl
@[simp] theorem clearIndex_k_k (s : State) : (clearIndex (some .k) s).k = 0 := rfl
@[simp] theorem clearIndex_c_k (s : State) : (clearIndex (some .c) s).k = s.k := rfl
@[simp] theorem clearIndex_j_k (s : State) : (clearIndex (some .j) s).k = s.k := rfl
@[simp] theorem clearIndex_none_c (s : State) : (clearIndex none s).c = s.c := rfl
@[simp] theorem clearIndex_k_c (s : State) : (clearIndex (some .k) s).c = s.c := rfl
@[simp] theorem clearIndex_c_c (s : State) : (clearIndex (some .c) s).c = 0 := rfl
@[simp] theorem clearIndex_j_c (s : State) : (clearIndex (some .j) s).c = s.c := rfl
@[simp] theorem clearIndex_none_j (s : State) : (clearIndex none s).j = s.j := rfl
@[simp] theorem clearIndex_k_j (s : State) : (clearIndex (some .k) s).j = s.j := rfl
@[simp] theorem clearIndex_c_j (s : State) : (clearIndex (some .c) s).j = s.j := rfl
@[simp] theorem clearIndex_j_j (s : State) : (clearIndex (some .j) s).j = 0 := rfl

/-! `Status` -/

@[simp] theorem refusal_busy (t : Status) (x : BitVec 3) : (t.refusal x).busy = t.busy := rfl
@[simp] theorem refusal_done (t : Status) (x : BitVec 3) : (t.refusal x).done = false := rfl
@[simp] theorem refusal_err (t : Status) (x : BitVec 3) : (t.refusal x).err = true := rfl
@[simp] theorem refusal_ecode (t : Status) (x : BitVec 3) : (t.refusal x).ecode = x := rfl
@[simp] theorem completed_busy (t : Status) : t.completed.busy = false := rfl
@[simp] theorem completed_done (t : Status) : t.completed.done = true := rfl
@[simp] theorem completed_err (t : Status) : t.completed.err = t.err := rfl
@[simp] theorem completed_ecode (t : Status) : t.completed.ecode = t.ecode := rfl
@[simp] theorem accepted_busy : Status.accepted.busy = true := rfl
@[simp] theorem accepted_done : Status.accepted.done = false := rfl
@[simp] theorem accepted_err : Status.accepted.err = false := rfl
@[simp] theorem accepted_ecode : Status.accepted.ecode = 0#3 := rfl

end Sys2Proof.Machine
end

