-- ==== Sys2Proof/Laws/Ops.lean ====
section
/-! SUPPORT. What each shared operation can do, said once: later proofs cite these and do not unfold the operations. -/

namespace Sys2Proof.Machine

/-! ### Sequencing -/

@[simp] theorem andThen_next (s : State) (f : State → Result) : andThen (.next s) f = f s := rfl
@[simp] theorem andThen_fault (r : Fault) (f : State → Result) : andThen (.fault r) f = .fault r := rfl
@[simp] theorem andThen_refused (r : Refusal) (f : State → Result) : andThen (.refused r) f = .refused r := rfl

theorem andThen_eq_next {o : Result} {f : State → Result} {t : State} (h : andThen o f = .next t) :
    ∃ s, o = .next s ∧ f s = .next t := by
  cases o with
  | next s => exact ⟨s, rfl, h⟩
  | fault r => cases h
  | refused r => cases h

@[simp] theorem withRead_ok {α : Type} (a : α) (f : α → Result) : withRead (.ok a) f = f a := rfl
@[simp] theorem withRead_error {α : Type} (r : Fault) (f : α → Result) : withRead (.error r) f = .fault r := rfl

theorem withRead_eq_next {α : Type} {e : Except Fault α} {f : α → Result} {t : State}
    (h : withRead e f = .next t) : ∃ a, e = .ok a ∧ f a = .next t := by
  cases e with
  | ok a => exact ⟨a, rfl, h⟩
  | error r => cases h

/-! ### Reads -/

theorem memRead_eq_ok {s : State} {k : Nat} {p : Pixel} :
    memRead s k = .ok p ↔ (k < s.n ∧ k < s.cfg.imgWords) ∧ p = imgWord s k := by
  unfold memRead
  split <;> simp_all [eq_comm]

theorem memRead_ok {s : State} {k : Nat} (h : k < s.n) (h' : k < s.cfg.imgWords) :
    memRead s k = .ok (imgWord s k) := memRead_eq_ok.2 ⟨⟨h, h'⟩, rfl⟩

theorem all_filled_iff (s : State) :
    s.pal.toList.all (fun e => e.palv) = true ↔ ∀ i : Fin 16, s.pal[i].palv = true := by
  simp only [List.all_eq_true, Vector.mem_toList_iff, Vector.mem_iff_getElem, forall_exists_index]
  exact ⟨fun h i => h _ i.val i.isLt rfl, fun h x i hi e => e ▸ h ⟨i, hi⟩⟩

theorem paletteColours_eq_ok {s : State} {l : List Byte} :
    paletteColours s = .ok l ↔ (∀ i : Fin 16, s.pal[i].palv = true) ∧ l = s.pal.toList.map fun e => e.palc := by
  rw [← all_filled_iff]
  unfold paletteColours
  split
  · exact ⟨fun h => ⟨‹_›, (Except.ok.inj h).symm⟩, fun h => congrArg _ h.2.symm⟩
  · exact ⟨nofun, fun h => absurd h.1 ‹_›⟩

theorem pendingRun_eq (s : State) :
    pendingRun s = .ok (if s.curv = true then [runByte s.cur s.run] else []) := by
  unfold pendingRun readCur
  cases s.curv <;> rfl

theorem runDiffers_eq (s : State) (idx : Nibble) :
    runDiffers s idx = .ok (if s.curv = true then decide (idx ≠ s.cur) else true) := by
  unfold runDiffers readCur
  cases s.curv <;> rfl

/-! ### The counter file and the palette file -/

@[simp] theorem histGet_histSet_same (h : Vector Nat 256) (q : Byte) (v : Nat) : histGet (histSet h q v) q = v := by
  simp [histGet, histSet]

theorem histGet_histSet_other (h : Vector Nat 256) {q q' : Byte} (v : Nat) (hne : q' ≠ q) :
    histGet (histSet h q v) q' = histGet h q' := by
  have : q.toNat ≠ q'.toNat := fun e => hne (BitVec.eq_of_toNat_eq e.symm)
  simp [histGet, histSet, this]

@[simp] theorem histGet_clear (q : Byte) : histGet (Vector.replicate 256 0) q = 0 := by
  simp [histGet]

theorem shiftInsert_getElem (pal : Vector PalSlot 16) (j : Nat) (e : PalSlot) (i : Fin 16) :
    (shiftInsert pal j e)[i] = if i.val < j then pal[i] else if i.val = j then e else pal[i.val - 1] := by
  simp [shiftInsert]

theorem clearPal_slot (s : State) (i : Fin 16) : (clearPal s).pal[i] = { s.pal[i] with palv := false } := by
  simp

theorem insertPos_eq_some {pal : Vector PalSlot 16} {n j : Nat} (h : insertPos pal n = some j) :
    ∃ hj : j < 16, (pal[j].palv = false ∨ pal[j].paln < n) ∧
      ∀ i (hi : i < j), pal[i].palv = true ∧ n ≤ pal[i].paln := by
  rw [insertPos, List.findIdx?_eq_some_iff_getElem] at h
  obtain ⟨hj, h1, h2⟩ := h
  have hj' : j < 16 := by simpa using hj
  refine ⟨hj', by simpa using h1, fun i hi => ?_⟩
  simpa using h2 i hi

theorem insertPos_eq_none {pal : Vector PalSlot 16} {n : Nat} (h : insertPos pal n = none) (i : Fin 16) :
    pal[i].palv = true ∧ n ≤ pal[i].paln := by
  rw [insertPos, List.findIdx?_eq_none_iff] at h
  have := h pal[i] (by simp)
  simpa using this

/-! ### START -/

/-- The five things a write to `CMD` can do (R80). -/
theorem start_cases (c : Byte) (s : State) :
    ((s.status.err = true ∨ s.status.busy = true) ∧ start c s = s) ∨
    (s.status.err = false ∧ s.status.busy = false ∧
      ((isCommand c = false ∧ start c s = takeRefusal ecodeReservedCmd s) ∨
       (isCommand c = true ∧ dimsTooLarge s = true ∧ start c s = takeRefusal ecodeValueTooLarge s) ∨
       (isCommand c = true ∧ dimsTooLarge s = false ∧ s.cfg.imgWords < s.width.toNat * s.height.toNat ∧
          start c s = takeRefusal ecodeInvalidImageGeometry s) ∨
       (isCommand c = true ∧ dimsTooLarge s = false ∧ s.width.toNat * s.height.toNat ≤ s.cfg.imgWords ∧
          start c s = acceptStart (c.extractLsb' 0 2) s))) := by
  unfold start
  cases s.status.err <;> cases s.status.busy <;> cases isCommand c <;> cases dimsTooLarge s <;> simp
  omega

/-- A command word that decodes is the word of the instruction it decodes to. -/
theorem decodeCmd_eq_ok {c : Byte} {i : Instr} (h : decodeCmd c = .ok i) : encode i = .cmd8 c := by
  unfold decodeCmd at h
  have bits : ∀ x : Byte, x.extractLsb' 2 6 = 0#6 → x = (x.extractLsb' 0 2).setWidth 8 := by decide
  split at h
  · cases h
  · rename_i hz
    have hc := bits c (not_not.1 hz)
    repeat' split at h
    all_goals cases h
    all_goals rw [hc, ‹c.extractLsb' 0 2 = _›]; rfl

/-- A host write to `CMD` is START with the word written, whatever the word (R10, R80). -/
theorem hostMove_wr_cmd (c : Byte) (s : State) : hostMove (.wr 0 c.toNat) s = .next (start c s) := by
  have hc : commandWord c.toNat = c := by simp [commandWord]
  simp only [hostMove, csrWrite, hc]
  split
  · rename_i i h
    have e := decodeCmd_eq_ok h
    cases i <;> cases e <;> rfl
  · rfl

/-! ### Steps -/

theorem engineStep_eq_next {s t : State} (h : engineStep s = .next t) :
    (seqRow s = .ok none ∧ t = s) ∨
    ∃ r u, seqRow s = .ok (some r) ∧ runOp r.op s = .next u ∧ t = applyRow r u := by
  unfold engineStep at h
  split at h
  · cases h
  · exact .inl ⟨‹_›, by cases h; rfl⟩
  · obtain ⟨u, hu, ht⟩ := andThen_eq_next h
    exact .inr ⟨_, u, ‹_›, hu, by cases ht; rfl⟩

theorem step_bench {s : State} {u : BitVec 4} (h : s.bench = some u) :
    step s = exec (decodeUop u) { s with bench := none } := by
  simp [step, machineStep, h]

theorem step_engine {s : State} (h : s.bench = none) (h' : s.inbox = []) : step s = engineStep s := by
  simp [step, machineStep, h, h']

theorem step_host {s : State} {m : HostMove} {rest : List HostMove} (h : s.bench = none) (h' : s.inbox = m :: rest) :
    step s = hostMove m { s with inbox := rest } := by
  simp [step, machineStep, h, h']

end Sys2Proof.Machine
end

