-- ==== Sys2Proof/Laws/Exec.lean ====
section
/-! SUPPORT. Inversion of the meanings that can stop: if one answers a next state, then it is this state, and the
operation's preconditions held. The other meanings are `.next` of a named update by definition. -/

namespace Sys2Proof.Machine

theorem execHistAcc_eq_next {s t : State} (h : execHistAcc s = .next t) :
    s.k < s.n ∧ s.k < s.cfg.imgWords ∧
    histGet s.hist (quantize (imgWord s s.k)) + 1 < 2 ^ s.cfg.cntBits ∧
    t = { s with
      hist := histSet s.hist (quantize (imgWord s s.k)) (histGet s.hist (quantize (imgWord s s.k)) + 1)
      k := s.k + 1 } := by
  obtain ⟨p, hp, h⟩ := withRead_eq_next h
  obtain ⟨⟨h1, h2⟩, rfl⟩ := memRead_eq_ok.1 hp
  split at h
  · exact ⟨h1, h2, ‹_›, by cases h; rfl⟩
  · cases h

theorem execPselIns_eq_next {s t : State} (h : execPselIns s = .next t) :
    s.c < 256 ∧
    t = { s with
      pal := offerColour s.pal (BitVec.ofNat 8 s.c) (histGet s.hist (BitVec.ofNat 8 s.c)), c := s.c + 1 } := by
  unfold execPselIns at h
  split at h
  · exact ⟨‹_›, by cases h; rfl⟩
  · cases h

theorem execMatchIdx_eq_next {s t : State} (h : execMatchIdx s = .next t) :
    (∀ i : Fin 16, s.pal[i].palv = true) ∧
    t = { s with ports := { s.ports with m := matchIndex s.ports.a (s.pal.toList.map fun e => e.palc) } } := by
  obtain ⟨l, hl, h⟩ := withRead_eq_next h
  obtain ⟨hf, rfl⟩ := paletteColours_eq_ok.1 hl
  exact ⟨hf, by cases h; rfl⟩

/-- `RLE.STEP` either flushes and starts a run or extends it, never both. -/
theorem execRleStep_eq_next {s t : State} (h : execRleStep s = .next t) :
    s.k < s.n ∧ s.k < s.cfg.imgWords ∧ (∀ i : Fin 16, s.pal[i].palv = true) ∧
    (let idx := matchIndex (quantize (imgWord s s.k)) (s.pal.toList.map fun e => e.palc)
     ((s.curv = false ∨ idx ≠ s.cur ∨ 15 ≤ s.run.toNat ∨ s.k + 1 = s.n) ∧
       t = { s with
        out := s.out ++ if s.curv = true then [runByte s.cur s.run] else []
        curv := true, cur := idx, run := 0#4, k := s.k + 1 }) ∨
     (s.curv = true ∧ idx = s.cur ∧ s.run.toNat < 15 ∧ s.k + 1 ≠ s.n ∧
       t = { s with run := s.run + 1#4, k := s.k + 1 })) := by
  obtain ⟨p, hp, h⟩ := withRead_eq_next h
  obtain ⟨⟨h1, h2⟩, rfl⟩ := memRead_eq_ok.1 hp
  obtain ⟨l, hl, h⟩ := withRead_eq_next h
  obtain ⟨hf, rfl⟩ := paletteColours_eq_ok.1 hl
  rw [runDiffers_eq, withRead_ok] at h
  refine ⟨h1, h2, hf, ?_⟩
  generalize hd : (if s.curv = true then _ else true) = differs at h
  split at h
  · rename_i hc
    rw [pendingRun_eq, withRead_ok] at h
    refine .inl ⟨?_, by cases h; rfl⟩
    subst hd
    revert hc
    cases s.curv <;> simp
  · rename_i hc
    subst hd
    cases hv : s.curv <;> simp [hv] at hc
    exact .inr ⟨rfl, hc.1, by omega, hc.2.2, by cases h; rw [hv]⟩

theorem execRleEnd_eq_next {s t : State} (h : execRleEnd s = .next t) :
    t = { s with
      out := s.out ++ if s.cfg.fixFinalRun = true ∧ s.curv = true then [runByte s.cur s.run] else [] } := by
  unfold execRleEnd at h
  split at h
  · rw [pendingRun_eq, withRead_ok] at h
    cases h
    simp_all
  · cases h
    simp_all

theorem execBinStep_eq_next {s t : State} (h : execBinStep s = .next t) :
    s.k < s.n ∧ s.k < s.cfg.imgWords ∧ s.nbits < 8 ∧
    (((s.nbits + 1 = 8 ∨ s.k + 1 = s.n) ∧
      t = { s with
        out := s.out ++ [packedByte (shiftInBit s.acc (thresholdBit (imgWord s s.k))) (s.nbits + 1)]
        acc := 0#8, nbits := 0, k := s.k + 1 }) ∨
     (s.nbits + 1 ≠ 8 ∧ s.k + 1 ≠ s.n ∧
      t = { s with
        acc := shiftInBit s.acc (thresholdBit (imgWord s s.k)), nbits := s.nbits + 1, k := s.k + 1 })) := by
  obtain ⟨p, hp, h⟩ := withRead_eq_next h
  obtain ⟨⟨h1, h2⟩, rfl⟩ := memRead_eq_ok.1 hp
  split at h
  · cases h
  · refine ⟨h1, h2, by omega, ?_⟩
    split at h
    · exact .inl ⟨‹_›, by cases h; rfl⟩
    · exact .inr ⟨by omega, by omega, by cases h; rfl⟩

theorem execRawStep_eq_next {s t : State} (h : execRawStep s = .next t) :
    s.k < s.n ∧ s.k < s.cfg.imgWords ∧ t = { s with out := s.out ++ [quantize (imgWord s s.k)], k := s.k + 1 } := by
  obtain ⟨p, hp, h⟩ := withRead_eq_next h
  obtain ⟨⟨h1, h2⟩, rfl⟩ := memRead_eq_ok.1 hp
  exact ⟨h1, h2, by cases h; rfl⟩

theorem execPalOut_eq_next {s t : State} (h : execPalOut s = .next t) :
    ∃ hj : s.j < 16, s.pal[s.j].palv = true ∧
      t = { s with out := s.out ++ [s.pal[s.j].palc], j := s.j + 1 } := by
  unfold execPalOut at h
  split at h
  · split at h
    · exact ⟨‹_›, ‹_›, by cases h; rfl⟩
    · cases h
  · cases h

end Sys2Proof.Machine
end

