-- ==== Sys2Proof/Laws/Image.lean ====
section
/-! SUPPORT. The laws of the image memory: read after write, canonical form kept, equal contents are equal lists. -/

namespace Sys2Proof.Machine

theorem img_get_set_same (m : List (Nat × Pixel)) (k : Nat) (v : Pixel) : Img.get (Img.set m k v) k = some v := by
  induction m with
  | nil => simp [Img.set, Img.get]
  | cons e rest ih =>
    obtain ⟨a, w⟩ := e
    simp only [Img.set]
    split
    · simp [Img.get]
    · split
      · simp [Img.get]
      · have : a ≠ k := by omega
        simp [Img.get, this, ih]

theorem img_get_set_other (m : List (Nat × Pixel)) {k k' : Nat} (v : Pixel) (h : k' ≠ k) :
    Img.get (Img.set m k v) k' = Img.get m k' := by
  induction m with
  | nil => simp [Img.set, Img.get, Ne.symm h]
  | cons e rest ih =>
    obtain ⟨a, w⟩ := e
    simp only [Img.set]
    split
    · simp [Img.get, Ne.symm h]
    · split
      · subst_vars; simp [Img.get, Ne.symm h]
      · simp [Img.get, ih]

theorem img_mem_set {m : List (Nat × Pixel)} {k : Nat} {v : Pixel} {e : Nat × Pixel} (h : e ∈ Img.set m k v) :
    e = (k, v) ∨ e ∈ m := by
  induction m with
  | nil => simpa [Img.set] using h
  | cons d rest ih =>
    obtain ⟨a, w⟩ := d
    simp only [Img.set] at h
    split at h
    · simpa using h
    · split at h
      · rcases List.mem_cons.1 h with h | h
        · exact .inl h
        · exact .inr (List.mem_cons_of_mem _ h)
      · rcases List.mem_cons.1 h with h | h
        · exact .inr (h ▸ List.mem_cons_self)
        · exact (ih h).imp id (List.mem_cons_of_mem _)

/-- A write keeps the canonical form. -/
theorem img_set_wf {m : List (Nat × Pixel)} (k : Nat) (v : Pixel) (h : Img.wf m) : Img.wf (Img.set m k v) := by
  induction m with
  | nil => simp [Img.wf, Img.set]
  | cons d rest ih =>
    obtain ⟨a, w⟩ := d
    simp only [Img.wf, List.map_cons, List.pairwise_cons, List.mem_map, forall_exists_index, and_imp,
      forall_apply_eq_imp_iff₂] at h ih ⊢
    simp only [Img.set]
    split
    · rename_i hk
      simp only [List.map_cons, List.pairwise_cons, List.mem_cons, forall_eq_or_imp, List.mem_map,
        forall_exists_index, and_imp, forall_apply_eq_imp_iff₂]
      exact ⟨⟨hk, fun e he => hk.trans (h.1 e he)⟩, h.1, h.2⟩
    · split
      · subst_vars
        simpa using h
      · rename_i h1 h2
        simp only [List.map_cons, List.pairwise_cons, List.mem_map, forall_exists_index, and_imp,
          forall_apply_eq_imp_iff₂]
        refine ⟨fun e he => ?_, ih h.2⟩
        rcases img_mem_set he with rfl | he
        · simp only; omega
        · exact h.1 e he

theorem imgWord_eq_of_img {s t : State} (h : t.img = s.img) (k : Nat) : imgWord t k = imgWord s k := by
  simp [imgWord, h]

theorem reset_img_wf : Img.wf State.reset.img := by simp [State.reset, Img.wf]

end Sys2Proof.Machine
end

