-- ==== Sys2Proof/Laws/Sequencer.lean ====
section
/-! SUPPORT. The inversion of an engine step (R87), and how `PSEL.INS` fills the palette. -/

namespace Sys2Proof.Machine

theorem modeOf_eq_some {l : BitVec 2} {m : Mode} (h : modeOf l = some m) :
    (m = .normal ∧ l = 0#2) ∨ (m = .binary ∧ l = 1#2) ∨ (m = .compressed ∧ l = 2#2) := by
  unfold modeOf at h
  repeat' split at h
  all_goals simp_all

/-- The enabled row, read off the table of R87. -/
theorem seqRow_eq_some {s : State} {r : SeqRow} (h : seqRow s = .ok (some r)) :
    (s.phase = .hdr0 ∧ r = ⟨some .hdrW, none, .hdr1, false⟩) ∨
    (s.phase = .hdr1 ∧ s.lmode = 2#2 ∧ r = ⟨some .hdrH, some .k, .hist, false⟩) ∨
    (s.phase = .hdr1 ∧ (s.lmode = 0#2 ∨ s.lmode = 1#2) ∧ r = ⟨some .hdrH, some .k, .scan, false⟩) ∨
    (s.phase = .hist ∧ s.k < s.n ∧ r = ⟨some .histAcc, none, .hist, false⟩) ∨
    (s.phase = .hist ∧ s.k = s.n ∧ r = ⟨none, some .c, .psel, false⟩) ∨
    (s.phase = .psel ∧ s.c < 256 ∧ r = ⟨some .pselIns, none, .psel, false⟩) ∨
    (s.phase = .psel ∧ s.c = 256 ∧ r = ⟨none, some .j, .palout, false⟩) ∨
    (s.phase = .palout ∧ s.j < 16 ∧ r = ⟨some .palOut, none, .palout, false⟩) ∨
    (s.phase = .palout ∧ s.j = 16 ∧ r = ⟨none, some .k, .scan, false⟩) ∨
    (s.phase = .scan ∧ s.k < s.n ∧ s.lmode = 0#2 ∧ r = ⟨some .rawStep, none, .scan, false⟩) ∨
    (s.phase = .scan ∧ s.k < s.n ∧ s.lmode = 1#2 ∧ r = ⟨some .binStep, none, .scan, false⟩) ∨
    (s.phase = .scan ∧ s.k < s.n ∧ s.lmode = 2#2 ∧ r = ⟨some .rleStep, none, .scan, false⟩) ∨
    (s.phase = .scan ∧ s.k = s.n ∧ (s.lmode = 0#2 ∨ s.lmode = 1#2) ∧ r = ⟨none, none, .done, true⟩) ∨
    (s.phase = .scan ∧ s.k = s.n ∧ s.lmode = 2#2 ∧ r = ⟨some .rleEnd, none, .done, true⟩) := by
  unfold seqRow at h
  cases hp : s.phase <;> simp only [hp] at h
  case idle | done => cases h
  case hdr0 => cases h; simp
  case hdr1 =>
    split at h <;> cases h
    · rename_i hm
      rcases modeOf_eq_some hm with h | h | h <;> simp_all
    · rename_i hm hc
      rcases modeOf_eq_some hc with h | h | h <;> simp_all
  case hist | psel | palout =>
    split at h
    · cases h; simp_all
    · split at h <;> cases h
      simp_all
  case scan =>
    split at h
    · cases h
    · rename_i m hm
      rcases modeOf_eq_some hm with ⟨rfl, hl⟩ | ⟨rfl, hl⟩ | ⟨rfl, hl⟩ <;>
      · split at h
        · cases h; simp_all [scanOp]
        · split at h <;> cases h
          simp_all

/-- A row that names its own phase and clears nothing changes nothing after its operation. -/
theorem applyRow_stay (o : Option Instr) (p : Phase) {s t : State} (h : t = applyRow ⟨o, none, p, false⟩ s)
    (hp : s.phase = p) : t = s := by
  subst hp; exact h

/-- Everything one engine step can do, one disjunct per row of R87, with the row's guard. The inversions of the meanings
(Laws/Exec.lean) say what the operation of a row then did. -/
theorem engineStep_cases {s t : State} (h : engineStep s = .next t) :
    ((s.phase = .idle ∨ s.phase = .done) ∧ t = s) ∨
    (s.phase = .hdr0 ∧ t = { s with out := s.out ++ [headerByte s.lw], phase := .hdr1 }) ∨
    (s.phase = .hdr1 ∧ s.lmode = 2#2 ∧
      t = { s with out := s.out ++ [headerByte s.lh], k := 0, phase := .hist }) ∨
    (s.phase = .hdr1 ∧ (s.lmode = 0#2 ∨ s.lmode = 1#2) ∧
      t = { s with out := s.out ++ [headerByte s.lh], k := 0, phase := .scan }) ∨
    (s.phase = .hist ∧ s.k < s.n ∧ execHistAcc s = .next t) ∨
    (s.phase = .hist ∧ s.k = s.n ∧ t = { s with c := 0, phase := .psel }) ∨
    (s.phase = .psel ∧ s.c < 256 ∧ execPselIns s = .next t) ∨
    (s.phase = .psel ∧ s.c = 256 ∧ t = { s with j := 0, phase := .palout }) ∨
    (s.phase = .palout ∧ s.j < 16 ∧ execPalOut s = .next t) ∨
    (s.phase = .palout ∧ s.j = 16 ∧ t = { s with k := 0, phase := .scan }) ∨
    (s.phase = .scan ∧ s.k < s.n ∧ s.lmode = 0#2 ∧ execRawStep s = .next t) ∨
    (s.phase = .scan ∧ s.k < s.n ∧ s.lmode = 1#2 ∧ execBinStep s = .next t) ∨
    (s.phase = .scan ∧ s.k < s.n ∧ s.lmode = 2#2 ∧ execRleStep s = .next t) ∨
    (s.phase = .scan ∧ s.k = s.n ∧ (s.lmode = 0#2 ∨ s.lmode = 1#2) ∧
      t = { s with status := s.status.completed, phase := .done }) ∨
    (s.phase = .scan ∧ s.k = s.n ∧ s.lmode = 2#2 ∧
      t = { s with
        out := s.out ++ if s.cfg.fixFinalRun = true ∧ s.curv = true then [runByte s.cur s.run] else []
        status := s.status.completed, phase := .done }) := by
  rcases engineStep_eq_next h with ⟨h1, rfl⟩ | ⟨r, u, h1, h2, h3⟩
  · refine .inl ⟨?_, rfl⟩
    unfold seqRow at h1
    cases hp : t.phase <;> simp only [hp] at h1
    case idle | done => simp
    all_goals (repeat' split at h1) <;> cases h1
  · have stay : ∀ {p : Phase} {f : State → Result} {o : Option Instr}, r = ⟨o, none, p, false⟩ → f s = .next u →
        u.phase = p → f s = .next t := by
      rintro p f o rfl hf hp
      rw [hf, applyRow_stay o p h3 hp]
    rcases seqRow_eq_some h1 with ⟨hp, rfl⟩ | ⟨hp, hl, rfl⟩ | ⟨hp, hl, rfl⟩ | ⟨hp, hk, rfl⟩ | ⟨hp, hk, rfl⟩ |
      ⟨hp, hk, rfl⟩ | ⟨hp, hk, rfl⟩ | ⟨hp, hk, rfl⟩ | ⟨hp, hk, rfl⟩ | ⟨hp, hk, hl, rfl⟩ | ⟨hp, hk, hl, rfl⟩ |
      ⟨hp, hk, hl, rfl⟩ | ⟨hp, hk, hl, rfl⟩ | ⟨hp, hk, hl, rfl⟩
    · cases h2; subst h3; simp [hp, applyRow, clearIndex, emit]
    · cases h2; subst h3; simp [hp, hl, applyRow, clearIndex, emit]
    · cases h2; subst h3; rcases hl with hl | hl <;> simp [hp, hl, applyRow, clearIndex, emit]
    · have e := execHistAcc_eq_next h2
      have := stay (f := execHistAcc) rfl h2 (by rw [e.2.2.2]; exact hp)
      simp [hp, hk, this]
    · cases h2; subst h3; simp [hp, hk, applyRow, clearIndex]
    · have e := execPselIns_eq_next h2
      have := stay (f := execPselIns) rfl h2 (by rw [e.2]; exact hp)
      simp [hp, hk, this]
    · cases h2; subst h3; simp [hp, hk, applyRow, clearIndex]
    · obtain ⟨_, _, e⟩ := execPalOut_eq_next h2
      have := stay (f := execPalOut) rfl h2 (by rw [e]; exact hp)
      simp [hp, hk, this]
    · cases h2; subst h3; simp [hp, hk, applyRow, clearIndex]
    · have e := execRawStep_eq_next h2
      have := stay (f := execRawStep) rfl h2 (by rw [e.2.2]; exact hp)
      simp [hp, hk, hl, this]
    · have e := execBinStep_eq_next h2
      have := stay (f := execBinStep) rfl h2 (by rcases e.2.2.2 with ⟨_, e⟩ | ⟨_, _, e⟩ <;> rw [e] <;> exact hp)
      simp [hp, hk, hl, this]
    · have e := execRleStep_eq_next h2
      have := stay (f := execRleStep) rfl h2 (by rcases e.2.2.2 with ⟨_, e⟩ | ⟨_, _, _, _, e⟩ <;> rw [e] <;> exact hp)
      simp [hp, hk, hl, this]
    · cases h2; subst h3; rcases hl with hl | hl <;> simp [hp, hk, hl, applyRow, clearIndex]
    · rw [h3, execRleEnd_eq_next h2]; simp [hp, hk, hl, applyRow, clearIndex]

/-- Offering the colour `c` to a palette whose first `c` slots are filled fills one more slot, up to all 16 (R66(a)). -/
theorem offerColour_filled {pal : Vector PalSlot 16} {c : Nat} {q : Byte} {n : Nat}
    (h : ∀ i : Fin 16, pal[i].palv = true ↔ i.val < c) (i : Fin 16) :
    (offerColour pal q n)[i].palv = true ↔ i.val < c + 1 := by
  unfold offerColour
  split
  · rename_i j hj
    obtain ⟨hj, h1, h2⟩ := insertPos_eq_some hj
    rw [shiftInsert_getElem]
    split
    · have := h i; have := h2 i (by assumption); simp at *; simp_all; omega
    · split
      · simp
        have a := h ⟨j, hj⟩
        rcases Nat.eq_zero_or_pos j with rfl | hp
        · omega
        have := h2 (j-1) (by omega); have b := h ⟨j-1, by omega⟩; simp at *; simp_all; omega
      · have := h ⟨i-1, by omega⟩; simp at *; rw [this]; omega
  · rename_i hn
    have h1 := insertPos_eq_none hn i
    have h2 := insertPos_eq_none hn ⟨15, by omega⟩
    have b := (h ⟨15, by omega⟩).1 h2.1
    simp at b
    simp only [h1.1, true_iff]
    omega

end Sys2Proof.Machine
end

