-- ==== Sys2Proof/Tests/Slice0.lean ====
section
/-! SUPPORT. Tests: expected values are the spec's own examples (rule or vector named), and witnesses that the
hypotheses of the statements can be met. -/

namespace Sys2Proof.Tests

open Sys2Proof Sys2Proof.Machine

/-! ### Reading a result -/

/-- The next state is there and satisfies `f`. -/
def nextIs (r : Result) (f : State → Bool) : Bool :=
  match r with
  | .next t => f t
  | .fault _ => false
  | .refused _ => false

/-- The result is this fault. -/
def faultIs (r : Result) (x : Fault) : Bool :=
  match r with
  | .next _ => false
  | .fault y => y == x
  | .refused _ => false

/-- The result is this refusal. -/
def refusalIs (r : Result) (x : Refusal) : Bool :=
  match r with
  | .next _ => false
  | .fault _ => false
  | .refused y => y == x

/-! ### Small states -/

/-- A scan at pixel `k` of `px`, stored from address 0. -/
def scanState (px : List Pixel) (k : Nat) : State :=
  { State.reset with
    lw := BitVec.ofNat 16 px.length, lh := 1#16, n := px.length, k := k
    img := px.mapIdx fun i p => (i, p) }

/-- A slot filled with a colour and a count. -/
def slot (q : Byte) (n : Nat) : PalSlot := { palv := true, palc := q, paln := n }

/-- The palette of program P4 (spec/95_test_vectors.md), counts left at 1. -/
def palP4 : Vector PalSlot 16 :=
  #v[slot 0x00 1, slot 0xFF 1, slot 0x03 1, slot 0x1C 1, slot 0xE0 1, slot 0x04 1, slot 0x08 1, slot 0x0C 1,
    slot 0x10 1, slot 0x14 1, slot 0x20 1, slot 0x40 1, slot 0x60 1, slot 0x80 1, slot 0xA0 1, slot 0xC0 1]

/-- A build whose image memory has `n` words. -/
def buildWith (n : Nat) : Config := { Config.default with imgWords := n }

/-- `State.reset` with dimensions and one host move waiting. -/
def hostState (g : Config) (w h : Dim) (m : HostMove) : State :=
  { State.reset with cfg := g, width := w, height := h, inbox := [m] }

/-- The sequencer at a phase with its indexes. -/
def seqState (p : Phase) (lmode : BitVec 2) (n k c j : Nat) : State :=
  { State.reset with phase := p, lmode := lmode, n := n, k := k, c := c, j := j }

/-! ### Well-formedness: each check refuses an ill-formed term (R4, R42 to R44) -/

theorem test_dimBits_too_small : ({ Config.default with dimBits := 7, imgWords := 0 } : Config).wf = false := by decide
theorem test_dimBits_too_large :
    ({ Config.default with dimBits := 17, cntBits := 40, imgWords := 0 } : Config).wf = false := by decide
theorem test_cntBits_too_small : ({ Config.default with cntBits := 31 } : Config).wf = false := by decide
theorem test_imgWords_too_large : ({ Config.default with imgWords := 2 ^ 32 + 1 } : Config).wf = false := by decide
theorem test_default_build_is_wf : Config.default.wf = true := by decide
theorem test_zero_field_must_be_zero : (CodeWord.cmd8 0b00000100#8).wf = false := by decide
theorem test_mode_three_is_reserved : (CodeWord.cmd8 0b00000011#8).wf = false := by decide

/-! ### Decoding: the words of R43 and R54, bit by bit -/

theorem test_decode_commands :
    decodeCmd 0b00000000#8 = .ok .encNormal ∧ decodeCmd 0b00000001#8 = .ok .encBinary ∧
    decodeCmd 0b00000010#8 = .ok .encCompressed ∧
    decodeCmd 0b00000011#8 = .error (.reservedCommand 0b00000011#8) ∧
    decodeCmd 0b10000000#8 = .error (.reservedCommand 0b10000000#8) := by decide

theorem test_decode_units :
    decodeUop 0b0000#4 = .quant ∧ decodeUop 0b0001#4 = .histClr ∧ decodeUop 0b0010#4 = .histAcc ∧
    decodeUop 0b0011#4 = .pselClr ∧ decodeUop 0b0100#4 = .pselIns ∧ decodeUop 0b0101#4 = .dist ∧
    decodeUop 0b0110#4 = .matchIdx ∧ decodeUop 0b0111#4 = .rleClr ∧ decodeUop 0b1000#4 = .rleStep ∧
    decodeUop 0b1001#4 = .rleEnd ∧ decodeUop 0b1010#4 = .binClr ∧ decodeUop 0b1011#4 = .binStep ∧
    decodeUop 0b1100#4 = .rawStep ∧ decodeUop 0b1101#4 = .hdrW ∧ decodeUop 0b1110#4 = .hdrH ∧
    decodeUop 0b1111#4 = .palOut := by decide

theorem test_table_words :
    decodeTableWord 8 0x02 = some .encCompressed ∧ decodeTableWord 8 0xF = some .palOut ∧
    decodeTableWord 4 0x2 = some .histAcc ∧ decodeTableWord 8 0x10 = none ∧ decodeTableWord 4 0x10 = none := by decide

/-! ### A placed instruction is the next step's (log entry 10) -/

theorem test_placed_commands_run_after_reset :
    nextIs (step (State.reset.withFetchWord 8 0x00)) (fun t => t.phase == .hdr0 && t.lmode == 0#2) = true ∧
    nextIs (step (State.reset.withFetchWord 8 0x01)) (fun t => t.phase == .hdr0 && t.lmode == 1#2) = true ∧
    nextIs (step (State.reset.withFetchWord 8 0x02)) (fun t => t.phase == .hdr0 && t.lmode == 2#2) = true := by decide

theorem test_placed_units_run_after_reset :
    ∀ u : Fin 16, nextIs (step (State.reset.withFetchWord 4 u.val)) (fun _ => true) = true := by decide

theorem test_placed_word_that_is_reserved_is_refused :
    nextIs (step (State.reset.withFetchWord 8 0x10)) (fun t => t.status.word == 0x0C#8) = true := by decide

/-! ### Quantizer: vectors 2.1 -/

theorem test_quantize_vectors :
    quantize 0xFF0000#24 = 0xE0#8 ∧ quantize 0x1F1F3F#24 = 0x00#8 ∧ quantize 0x202040#24 = 0x25#8 ∧
    quantize 0x7F7F7F#24 = 0x6D#8 ∧ quantize 0xA05FBF#24 = 0xAA#8 ∧ quantize 0x64C832#24 = 0x78#8 := by decide

theorem test_quant_answers_at_its_port :
    nextIs (exec .quant { State.reset with ports := { State.reset.ports with pix := 0x808080#24 } })
      (fun t => t.ports.q == 0x92#8) = true := by decide

/-! ### Histogram Builder: examples of R58, R59 -/

theorem test_histAcc_counts_the_quantized_pixel :
    nextIs (exec .histAcc { scanState [0xFF0000#24] 0 with hist := (Vector.replicate 256 0).set 0xE0 4 })
      (fun t => histGet t.hist 0xE0#8 == 5 && histGet t.hist 0x00#8 == 0 && t.k == 1) = true := by decide

theorem test_histClr_clears :
    nextIs (exec .histClr { State.reset with hist := (Vector.replicate 256 0).set 0xE0 4 })
      (fun t => histGet t.hist 0xE0#8 == 0) = true := by decide

/-! ### Palette Selector: example of R63 -/

/-- The list of R63's example. -/
def palR63 : Vector PalSlot 16 :=
  #v[slot 0x00 9, slot 0x03 4, slot 0x04 4, slot 0x05 0, slot 0x06 0, slot 0x07 0, slot 0x08 0, slot 0x09 0,
    slot 0x0A 0, slot 0x0B 0, slot 0x0C 0, slot 0x0D 0, slot 0x0E 0, slot 0x0F 0, slot 0x10 0, slot 0x11 0]

theorem test_pselIns_example :
    nextIs (exec .pselIns { State.reset with
        c := 0x1C, hist := (Vector.replicate 256 0).set 0x1C 4, pal := palR63 })
      (fun t => t.pal[2] == slot 0x04 4 && t.pal[3] == slot 0x1C 4 && t.pal[4] == slot 0x05 0 &&
        t.pal[15] == slot 0x10 0 && t.c == 0x1D) = true := by decide

theorem test_pselIns_discards :
    nextIs (exec .pselIns { State.reset with c := 0x1C, pal := palR63 })
      (fun t => t.pal == palR63 && t.c == 0x1D) = true := by decide

theorem test_pselClr_unfills :
    nextIs (exec .pselClr { State.reset with pal := palR63 }) (fun t => !t.pal[0].palv && !t.pal[15].palv) = true := by
  decide

/-! ### Color Matcher: vectors 2.4, T5 -/

theorem test_dist_vectors :
    colourDist 0x00#8 0xFF#8 = 17 ∧ colourDist 0xE4#8 0xC0#8 = 2 ∧ colourDist 0x92#8 0x6D#8 = 3 ∧
    colourDist 0x1C#8 0xE0#8 = 14 ∧ colourDist 0xAA#8 0xAA#8 = 0 := by decide

theorem test_match_vectors :
    matchIndex 0xE4#8 (palP4.toList.map fun e => e.palc) = 4#4 ∧
    matchIndex 0xFE#8 (palP4.toList.map fun e => e.palc) = 1#4 ∧
    matchIndex 0x06#8 (palP4.toList.map fun e => e.palc) = 2#4 ∧
    matchIndex 0x01#8 (palP4.toList.map fun e => e.palc) = 0#4 ∧
    matchIndex 0x07#8 (0x07#8 :: 0x07#8 :: List.replicate 14 0x00#8) = 0#4 ∧
    matchIndex 0x00#8 (0x07#8 :: 0x07#8 :: List.replicate 14 0x00#8) = 2#4 := by decide

theorem test_match_unit :
    nextIs (exec .matchIdx { State.reset with pal := palP4, ports := { State.reset.ports with a := 0xE4#8 } })
      (fun t => t.ports.m == 4#4) = true ∧
    faultIs (exec .matchIdx State.reset) .unsetPaletteSlot = true := by decide

theorem test_dist_unit :
    nextIs (exec .dist { State.reset with ports := { State.reset.ports with a := 0xFE#8, b := 0xFF#8 } })
      (fun t => t.ports.d == 1#5) = true := by decide

/-! ### Run-Length Encoder: examples of R70 to R72 -/

theorem test_rleStep_cap_flushes :
    nextIs (exec .rleStep { scanState [0#24, 0#24] 0 with pal := palP4, curv := true, cur := 0#4, run := 15#4 })
      (fun t => t.out == [0xF0#8] && t.curv && t.cur == 0#4 && t.run == 0#4) = true := by decide

theorem test_rleStep_last_pixel_flushes :
    nextIs (exec .rleStep { scanState [0xFFFFFF#24] 0 with pal := palP4, curv := true, cur := 1#4, run := 1#4 })
      (fun t => t.out == [0x11#8] && t.cur == 1#4 && t.run == 0#4) = true := by decide

theorem test_rleEnd_variants :
    nextIs (exec .rleEnd { State.reset with curv := true }) (fun t => t.out == []) = true ∧
    nextIs (exec .rleEnd { State.reset with curv := true, cfg := { Config.default with fixFinalRun := true } })
      (fun t => t.out == [0x00#8]) = true := by decide

theorem test_rleClr : nextIs (exec .rleClr { State.reset with curv := true }) (fun t => !t.curv && t.run == 15#4) = true := by
  decide

/-! ### Bit Packer: example of R76, vector B2 -/

theorem test_binStep_last_pixel :
    nextIs (exec .binStep { scanState [0xC80000#24] 0 with acc := 0b101#8, nbits := 3 })
      (fun t => t.out == [0xB0#8] && t.acc == 0#8 && t.nbits == 0) = true := by decide

theorem test_binStep_collects :
    nextIs (exec .binStep { scanState [0xC80000#24, 0#24] 0 with acc := 0b101#8, nbits := 3 })
      (fun t => t.out == [] && t.acc == 0b1011#8 && t.nbits == 4) = true := by decide

theorem test_binStep_threshold_is_strict :
    nextIs (exec .binStep (scanState [0x7FFFFF#24] 0)) (fun t => t.out == [0x00#8]) = true ∧
    nextIs (exec .binStep (scanState [0x800000#24] 0)) (fun t => t.out == [0x80#8]) = true := by decide

theorem test_binClr : nextIs (exec .binClr { State.reset with acc := 3#8, nbits := 2 })
    (fun t => t.acc == 0#8 && t.nbits == 0) = true := by decide

/-! ### Raw Emitter, header, palette output: examples of R78, R81 to R83 -/

theorem test_rawStep : nextIs (exec .rawStep (scanState [0#24, 0xFF0000#24] 1))
    (fun t => t.out == [0xE0#8] && t.k == 2) = true := by decide

theorem test_header_truncates :
    nextIs (exec .hdrW { State.reset with lw := 300#16 }) (fun t => t.out == [0x2C#8]) = true ∧
    nextIs (exec .hdrH { State.reset with lh := 257#16 }) (fun t => t.out == [0x01#8]) = true := by decide

theorem test_palOut : nextIs (exec .palOut { State.reset with pal := palP4, j := 4 })
    (fun t => t.out == [0xE0#8] && t.j == 5) = true := by decide

/-! ### START and refusals: example of R80, vectors M9 to M12 -/

theorem test_start_accepts :
    nextIs (exec .encNormal (hostState (buildWith 2) 2#16 1#16 .tick))
      (fun t => t.n == 2 && t.status.word == 0x01#8 && t.phase == .hdr0) = true := by decide

theorem test_refusal_codes :
    nextIs (step (hostState (buildWith 2) 2#16 1#16 (.wr 0 3))) (fun t => t.status.word == 0x0C#8) = true ∧
    nextIs (step (hostState { buildWith 600 with strictDims := true } 300#16 2#16 (.wr 0 2)))
      (fun t => t.status.word == 0x14#8) = true ∧
    nextIs (step (hostState (buildWith 9) 4#16 4#16 (.wr 0 1))) (fun t => t.status.word == 0x1C#8) = true ∧
    nextIs (step (hostState { buildWith 0 with strictDims := true } 300#16 2#16 (.wr 0 3)))
      (fun t => t.status.word == 0x0C#8) = true := by decide

theorem test_encBinary_and_encCompressed_latch_their_mode :
    nextIs (exec .encBinary State.reset) (fun t => t.lmode == 1#2) = true ∧
    nextIs (exec .encCompressed State.reset) (fun t => t.lmode == 2#2) = true := by decide

/-! ### Witnesses: the hypotheses of the statements can be met -/

theorem witness_CommandWordsDecodeOrAreReserved :
    (0x03#8 : Byte) ≠ 0x00#8 ∧ (0x03#8 : Byte) ≠ 0x01#8 ∧ (0x03#8 : Byte) ≠ 0x02#8 := by decide

theorem witness_DecodeAndEncodeAgree :
    Instr.palOut.wf = true ∧ (CodeWord.cmd8 0x02#8).wf = true ∧ (CodeWord.cmd8 0x03#8).wf = false := by decide

theorem witness_WriteToCmdRunsTheDecodedCommand :
    (hostState (buildWith 2) 2#16 1#16 (.wr 0 2)).bench = none ∧
    (hostState (buildWith 2) 2#16 1#16 (.wr 0 2)).inbox = .wr 0 2 :: [] ∧
    decodeCmd (BitVec.ofNat 8 2) = .ok .encCompressed := by decide

theorem witness_StepMakesTheNextMove :
    ({ State.reset with bench := some 0xF#4 } : State).bench = some 0xF#4 ∧
    (hostState (buildWith 2) 2#16 1#16 .readout).bench = none ∧
    (hostState (buildWith 2) 2#16 1#16 .readout).inbox = .readout :: [] ∧
    State.reset.bench = none ∧ State.reset.inbox = [] := by decide

theorem seqState_engineAlone (p : Phase) (m : BitVec 2) (n k c j : Nat) : (seqState p m n k c j).EngineAlone :=
  ⟨rfl, rfl⟩

/-- One state for each row of R87, at the ends of the index ranges. -/
theorem witness_SequencerPerformsItsTable :
    (seqState .done 0 0 0 0 0).phase = .done ∧ (seqState .hdr0 0 0 0 0 0).phase = .hdr0 ∧
    ((seqState .hdr1 2 0 0 0 0).phase = .hdr1 ∧ (seqState .hdr1 2 0 0 0 0).lmode = 2#2) ∧
    ((seqState .hdr1 1 0 0 0 0).phase = .hdr1 ∧ (seqState .hdr1 1 0 0 0 0).lmode = 1#2) ∧
    ((seqState .hist 2 1 0 0 0).k < (seqState .hist 2 1 0 0 0).n) ∧
    ((seqState .hist 2 1 1 0 0).k = (seqState .hist 2 1 1 0 0).n) ∧
    ((seqState .psel 2 0 0 255 0).c < 256 ∧ (seqState .psel 2 0 0 256 0).c = 256) ∧
    ((seqState .palout 2 0 0 0 15).j < 16 ∧ (seqState .palout 2 0 0 0 16).j = 16) ∧
    ((seqState .scan 0 1 0 0 0).k < (seqState .scan 0 1 0 0 0).n ∧ (seqState .scan 0 1 0 0 0).lmode = 0#2) ∧
    ((seqState .scan 1 1 0 0 0).k < (seqState .scan 1 1 0 0 0).n ∧ (seqState .scan 1 1 0 0 0).lmode = 1#2) ∧
    ((seqState .scan 2 1 0 0 0).k < (seqState .scan 2 1 0 0 0).n ∧ (seqState .scan 2 1 0 0 0).lmode = 2#2) ∧
    ((seqState .scan 1 1 1 0 0).k = (seqState .scan 1 1 1 0 0).n ∧ (seqState .scan 1 1 1 0 0).lmode = 1#2) ∧
    ((seqState .scan 2 0 0 0 0).k = (seqState .scan 2 0 0 0 0).n ∧ (seqState .scan 2 0 0 0 0).lmode = 2#2) := by decide

theorem witness_QuantizedFieldsAreTruncatedChannels :
    (31#8 : Byte).toNat ≤ (32#8 : Byte).toNat ∧ (0#8 : Byte).toNat ≤ (255#8 : Byte).toNat := by decide

theorem witness_HistAccCountsOnePixel :
    (scanState [0xFF0000#24] 0).k < (scanState [0xFF0000#24] 0).n ∧
    (scanState [0xFF0000#24] 0).k < (scanState [0xFF0000#24] 0).cfg.imgWords ∧
    histGet (scanState [0xFF0000#24] 0).hist (quantize (imgWord (scanState [0xFF0000#24] 0) 0)) + 1 <
      2 ^ (scanState [0xFF0000#24] 0).cfg.cntBits := by decide

theorem witness_HistogramPassBuildsTheHistogram :
    (scanState [0xFF0000#24] 0).k = 0 ∧ (∀ q, histGet (scanState [0xFF0000#24] 0).hist q = 0) ∧
    (scanState [0xFF0000#24] 0).n ≤ (scanState [0xFF0000#24] 0).cfg.imgWords ∧
    (scanState [0xFF0000#24] 0).n < 2 ^ (scanState [0xFF0000#24] 0).cfg.cntBits :=
  ⟨rfl, fun q => histGet_clear q, by decide, by decide⟩

theorem witness_HistogramCountsEveryPixelOnce :
    (([0#24, 0xFF0000#24] : List Pixel).map quantize).Perm (([0xFF0000#24, 0#24] : List Pixel).map quantize) := by decide

/-- Both clauses of R63: an insertion at the first slot and at the last, and a discarded candidate. -/
theorem witness_PselInsShiftsAndInserts :
    State.reset.c < 256 ∧ (State.reset.pal[(0 : Fin 16)].palv = false) ∧ (∀ i : Fin 16, ¬ i < 0) ∧
    (palR63[(15 : Fin 16)].paln < 1 ∧ ∀ i : Fin 16, i < 3 → palR63[i].palv = true ∧ 1 ≤ palR63[i].paln) ∧
    (∀ i : Fin 16, palR63[i].palv = true ∧
      histGet ({ State.reset with c := 255, pal := palR63 } : State).hist (BitVec.ofNat 8 255) ≤ palR63[i].paln) := by
  decide

theorem witness_SelectionPassSelectsThePalette :
    State.reset.c = 0 ∧ ∀ i : Fin 16, State.reset.pal[i].palv = false := by decide

theorem witness_PaletteHoldsTheSixteenBestColours : (0xFF#8 : Byte) ∉ selectPalette fun _ => 0 := by decide +kernel

theorem witness_PaletteFillsUpWithTheSmallestAbsentColours :
    16 ≤ (allColours.countP fun c => decide (0 < (fun _ : Byte => 1) c)) ∧
    (allColours.countP fun c => decide (0 < (fun q : Byte => if q = 0xE0#8 then 4 else 0) c)) < 16 ∧
    0 < (fun q : Byte => if q = 0xE0#8 then 4 else 0) 0xE0#8 ∧
    (∀ c' : Byte, c' ≠ 0xE0#8 → (fun q : Byte => if q = 0xE0#8 then 4 else 0) c' = 0) ∧
    ∀ c : Byte, (fun _ : Byte => 0) c = 0 :=
  ⟨by decide +kernel, by decide +kernel, by decide, fun _ h => if_neg h, fun _ => rfl⟩

theorem witness_MatchAnswersTheFirstNearestEntry :
    (∀ i : Fin 16, ({ State.reset with pal := palP4 } : State).pal[i].palv = true) ∧
    ∃ i : Fin 16, State.reset.pal[i].palv = false := ⟨by decide, 0, by decide⟩

theorem witness_PaletteMemberMatchesItself :
    (palP4.toList.map fun e => e.palc).length = 16 ∧ (palP4.toList.map fun e => e.palc).Nodup ∧
    (palP4.toList.map fun e => e.palc)[15]? = some 0xC0#8 ∧ 0x00#8 ∈ (palP4.toList.map fun e => e.palc) := by decide

/-- The three branches of R71: first pixel, last pixel at the cap, extension just below the cap. -/
theorem witness_RleStepFlushesOrExtends :
    (∀ s ∈ [{ scanState [0#24] 0 with pal := palP4 },
        { scanState [0#24] 0 with pal := palP4, curv := true, run := 15#4 },
        { scanState [0#24, 0#24] 0 with pal := palP4, curv := true, run := 14#4 }],
      s.k < s.n ∧ s.k < s.cfg.imgWords ∧ ∀ i : Fin 16, s.pal[i].palv = true) ∧
    ({ scanState [0#24] 0 with pal := palP4 } : State).curv = false ∧
    (scanState [0#24] 0).k = (scanState [0#24] 0).n - 1 ∧
    matchIndex (quantize (imgWord (scanState [0#24, 0#24] 0) 0)) (palP4.toList.map fun e => e.palc) = 0#4 ∧
    (14#4 : Nibble).toNat < 15 ∧ (scanState [0#24, 0#24] 0).k ≠ (scanState [0#24, 0#24] 0).n - 1 := by decide

theorem witness_RleEndDropsOrFlushesTheLastRun :
    State.reset.cfg.fixFinalRun = false ∧
    (∃ s : State, s.cfg.fixFinalRun = true ∧ s.curv = false) ∧ (∃ s : State, s.cfg.fixFinalRun = true ∧ s.curv = true) ∧
    ((scanState [0#24] 0).k = 0 ∧ (scanState [0#24] 0).curv = false ∧ 1 ≤ (scanState [0#24] 0).n ∧
      (scanState [0#24] 0).n ≤ (scanState [0#24] 0).cfg.imgWords ∧
      ∀ i : Fin 16, ({ scanState [0#24] 0 with pal := palP4 } : State).pal[i].palv = true) :=
  ⟨rfl, ⟨{ State.reset with cfg := { Config.default with fixFinalRun := true } }, by decide⟩,
    ⟨{ State.reset with cfg := { Config.default with fixFinalRun := true }, curv := true }, by decide⟩, by decide⟩

theorem witness_RunLengthPassAppendsTheRuns :
    (scanState [0#24] 0).k = 0 ∧ (scanState [0#24] 0).curv = false ∧
    (∀ i : Fin 16, ({ scanState [0#24] 0 with pal := palP4 } : State).pal[i].palv = true) ∧
    (scanState [0#24] 0).n ≤ (scanState [0#24] 0).cfg.imgWords := by decide

/-- Vector 2.5, row `1 1 2 2 2 1`, and two equal neighbours after a full run. -/
theorem witness_RunBytesStandForAllButTheLastPixel :
    rle [1, 1, 2, 2, 2, 1] false = [0x11, 0x22] ∧ rle [1, 1, 2, 2, 2, 1] true = [0x11, 0x22, 0x01] ∧
    rle (List.replicate 18 3) false = [0xF3, 0x03] := by decide

/-- Both branches of R76, at `NBITS` = 7 and at the last pixel, and below both. -/
theorem witness_BinStepCollectsOrFlushes :
    (∀ s ∈ [{ scanState [0#24, 0#24] 0 with acc := 127#8, nbits := 7 }, scanState [0x800000#24] 0,
        { scanState [0#24, 0#24] 0 with acc := 63#8, nbits := 6 }],
      s.k < s.n ∧ s.k < s.cfg.imgWords ∧ s.nbits ≤ 7 ∧ s.acc.toNat < 2 ^ s.nbits) ∧
    (scanState [0x800000#24] 0).k = (scanState [0x800000#24] 0).n - 1 ∧
    (scanState [0#24, 0#24] 0).k ≠ (scanState [0#24, 0#24] 0).n - 1 := by decide

theorem witness_BitPackingPassAppendsThePackedBytes :
    (scanState [0#24, 0#24] 0).k = 0 ∧ (scanState [0#24, 0#24] 0).acc = 0#8 ∧ (scanState [0#24, 0#24] 0).nbits = 0 ∧
    (scanState [0#24, 0#24] 0).n ≤ (scanState [0#24, 0#24] 0).cfg.imgWords := by decide

theorem witness_RawStepEmitsTheQuantizedPixel :
    (scanState [0#24, 0#24] 1).k < (scanState [0#24, 0#24] 1).n ∧
    (scanState [0#24, 0#24] 1).k < (scanState [0#24, 0#24] 1).cfg.imgWords := by decide

theorem witness_RawPassAppendsEveryPixel :
    (scanState [0#24] 0).k = 0 ∧ (scanState [0#24] 0).n ≤ (scanState [0#24] 0).cfg.imgWords := by decide

theorem witness_PalOutEmitsOneColour :
    (State.reset.j = 0 ∧ ∀ i : Fin 16, ({ State.reset with pal := palP4 } : State).pal[i].palv = true) ∧
    ({ State.reset with pal := palP4, j := 15 } : State).j < 16 ∧ palP4[15].palv = true ∧
    State.reset.j < 16 ∧ State.reset.pal[State.reset.j].palv = false := by decide

/-- A launch of 2 x 1 pixels that every build of at least two words accepts. -/
def launchState : State := { State.reset with cfg := buildWith 2, width := 2#16, height := 1#16 }

/-- Also of the clauses on the accepted START in the statements about `HIST.CLR`, `PSEL.CLR`, `RLE.CLR`, `BIN.CLR`. -/
theorem witness_AcceptedStartInitialisesTheConversion : launchState.Accepts :=
  ⟨rfl, rfl, by decide, by decide⟩

/-- A state for each cause of R93, at the least values that bring it about, and the two in which the write is ignored. -/
theorem witness_RefusalRecordsTheFirstCause :
    (State.reset.status.refusal 1#3).err = true ∧ Status.accepted.busy = true ∧
    (State.reset.status.err = false ∧ State.reset.status.busy = false) ∧
    ((3#8 : Byte) ≠ 0x00#8 ∧ (3#8 : Byte) ≠ 0x01#8 ∧ (3#8 : Byte) ≠ 0x02#8) ∧
    (∃ s : State, s.status.err = false ∧ s.status.busy = false ∧ s.cfg.strictDims = true ∧ 256 ≤ s.width.toNat) ∧
    ∃ s : State, s.status.err = false ∧ s.status.busy = false ∧ s.cfg.strictDims = false ∧
      s.cfg.imgWords < s.width.toNat * s.height.toNat :=
  ⟨rfl, rfl, by decide, by decide,
    ⟨{ State.reset with cfg := { Config.default with strictDims := true }, width := 256#16 }, by decide⟩,
    ⟨{ State.reset with cfg := buildWith 1, width := 2#16, height := 1#16 }, by decide⟩⟩

/-- A refused command. -/
def refusedState : State := { State.reset with status := State.reset.status.refusal 3#3 }

theorem witness_ErrorIsStickyUntilReset :
    refusedState.status.err = true ∧ exec .quant refusedState = .next refusedState ∧
    engineStep refusedState = .next refusedState ∧ hostMove .readout refusedState = .next refusedState :=
  ⟨rfl, rfl, rfl, rfl⟩

theorem witness_ResetReturnsToIdle :
    refusedState.status.err = true ∧ State.reset.status.err = false ∧
    hostMove .reset refusedState = .next State.reset := ⟨rfl, rfl, rfl⟩

theorem witness_RegisterReadsHaveNoSideEffect :
    ∀ reg ∈ [0, 1, 2, 3, 4], (hostState (buildWith 2) 2#16 1#16 (.rd reg)).bench = none ∧
      (hostState (buildWith 2) 2#16 1#16 (.rd reg)).inbox = .rd reg :: [] := by decide

/-- A stream of two bytes and a written image word, read at the last position that exists and at the first that does not. -/
theorem witness_StreamAndImageReadsHaveNoSideEffect :
    1 < ({ State.reset with out := [0x02#8, 0xE0#8] } : State).out.length ∧
    ({ State.reset with out := [0x02#8, 0xE0#8] } : State).out.length ≤ 2 ∧
    1 < (buildWith 2).imgWords ∧ (buildWith 2).imgWords ≤ 2 := by decide

theorem test_reads_of_the_stream_and_the_image :
    nextIs (hostMove (.outRd 1) { State.reset with out := [0x02#8, 0xE0#8] })
      (fun t => t.seen == [0xE0] && t.out == [0x02#8, 0xE0#8]) = true ∧
    nextIs (hostMove (.imgRd 0) { State.reset with img := [(0, 0xFF0000#24)] }) (fun t => t.seen == [0xFF0000]) = true := by
  decide

theorem witness_DimensionWritesKeepTheLowBits :
    ∀ reg ∈ [1, 2, 3, 4], (hostState (buildWith 2) 2#16 1#16 (.wr reg 65536)).bench = none ∧
      (hostState (buildWith 2) 2#16 1#16 (.wr reg 65536)).inbox = .wr reg 65536 :: [] ∧
      (hostState (buildWith 2) 2#16 1#16 (.wr reg 65536)).cfg.wf = true := by decide

theorem witness_ImageWriteChangesOneWord :
    (hostState (buildWith 2) 0#16 0#16 (.imgWr 1 0xFF#24)).status.busy = false ∧ 1 < (buildWith 2).imgWords ∧
    Img.wf (hostState (buildWith 2) 0#16 0#16 (.imgWr 1 0xFF#24)).img ∧ (buildWith 2).imgWords ≤ 2 ∧
    Status.accepted.busy = true :=
  ⟨rfl, by decide, reset_img_wf, by decide, rfl⟩

theorem test_image_write_while_busy_is_refused :
    refusalIs (step { hostState (buildWith 2) 0#16 0#16 (.imgWr 1 0xFF#24) with status := Status.accepted })
      .imgWriteWhileBusy = true := by decide

theorem witness_WaitLetsTheEngineRun :
    ({ State.reset with status := Status.accepted.completed, inbox := [.wait] } : State).status.done = true ∧
    (hostState (buildWith 2) 0#16 0#16 .wait).status.done = false ∧
    (hostState (buildWith 2) 0#16 0#16 .wait).status.err = false := by decide

/-- One state for each condition of R102. -/
theorem witness_UnreachableConditionsFault :
    (State.reset.j < 16 ∧ State.reset.pal[State.reset.j].palv = false) ∧ State.reset.pal[(0 : Fin 16)].palv = false ∧
    State.reset.curv = false ∧ State.reset.n ≤ State.reset.k ∧
    ((scanState [0#24] 0).k < (scanState [0#24] 0).n ∧ (scanState [0#24] 0).k < (scanState [0#24] 0).cfg.imgWords ∧
      (scanState [0#24] 0).pal[(0 : Fin 16)].palv = false) ∧
    2 ^ ({ Config.default with cntBits := 0 } : Config).cntBits ≤
      histGet (scanState [0#24] 0).hist (quantize (imgWord (scanState [0#24] 0) 0)) + 1 ∧
    ((seqState .scan 3#2 0 0 0 0).phase = .scan ∧ (seqState .scan 3#2 0 0 0 0).lmode = 3#2) := by decide

theorem witness_InstructionsLeaveTheImageAndTheLaunchAlone :
    ∃ t : State, exec .rawStep (scanState [0xFF0000#24] 0) = .next t := ⟨_, rfl⟩

/-- A compressed conversion of one pixel of colour 0x00 whose first candidate has been offered. -/
def selecting : State :=
  { State.reset with
    cfg := buildWith 1, width := 1#16, height := 1#16, lw := 1#16, lh := 1#16, lmode := 2#2, n := 1, k := 1
    hist := (Vector.replicate 256 0).set 0 1, c := 1
    pal := (Vector.replicate 16 { palv := false, palc := 0#8, paln := 0 }).set 0 (slot 0x00 1)
    out := [0x01#8, 0x01#8], run := 15#4, phase := .psel, status := Status.accepted, img := [(0, 0#24)] }

theorem witness_EveryStepKeepsTheInvariant : selecting.Inv where
  buildOk := by decide
  widthFits := by decide
  heightFits := by decide
  lwFits := by decide
  lhFits := by decide
  nIsProduct := by decide
  imageFits := by decide
  busyIsRunning := rfl
  doneAtDone := by decide
  errStopped := by decide
  causeOfError := by decide
  kBound := by decide
  cBound := by decide
  jBound := by decide
  legalMode := by decide
  bitsBound := by decide
  accBound := by decide
  imgCanonical := by simp [selecting, Img.wf]
  imgInRange := by simp [selecting, buildWith]
  compressedPhase := fun _ => rfl
  histFresh := by simp [selecting]
  histBound := by simp [selecting]
  palFresh := by simp [selecting]
  palFilling := by decide
  palFilled := by simp [selecting]
  benchEmpty := rfl

theorem witness_EveryStepKeepsThePaletteOrdered : selecting.PaletteOrdered where
  ordered := by decide
  countsOfHist := by decide
  offered := by decide

theorem witness_step_of_selecting : ∃ t, step selecting = .next t := ⟨_, rfl⟩

theorem witness_RunningConversionKeepsItsLaunch :
    selecting.status.busy = true ∧ selecting.inbox.head? ≠ some .reset := by decide

/-- The premises of the four statements about conversions and of the step counts. -/
theorem witness_ConversionComputesEncode : launchState.EngineAlone ∧ launchState.Accepts ∧ launchState.DimsFit :=
  ⟨⟨rfl, rfl⟩, witness_AcceptedStartInitialisesTheConversion, ⟨by decide, by decide, by decide⟩⟩

theorem witness_ConversionRunsUntilItsLastStep :
    ∃ s1, exec (commandOf .compressed) launchState = .next s1 ∧ 0 < conversionSteps .compressed 2 :=
  ⟨_, rfl, by decide⟩

/-- A launch of no pixels, after which three steps reach `DONE` from two different earlier states. -/
theorem witness_ConversionsAreIndependent :
    ∃ s s' s1 s1' t t' : State, s ≠ s' ∧ s.Accepts ∧ s'.Accepts ∧ s.DimsFit ∧ s.EngineAlone ∧ s'.EngineAlone ∧
      s'.cfg = s.cfg ∧ s'.width = s.width ∧ s'.height = s.height ∧ s'.img = s.img ∧
      exec (commandOf .normal) s = .next s1 ∧ exec (commandOf .normal) s' = .next s1' ∧
      runSteps (conversionSteps .normal (s.width.toNat * s.height.toNat)) s1 = .next t ∧
      runSteps (conversionSteps .normal (s.width.toNat * s.height.toNat)) s1' = .next t' :=
  ⟨State.reset, { State.reset with acc := 7#8, out := [0x55#8] }, _, _, _, _,
    fun h => absurd (congrArg State.out h) (by decide),
    ⟨rfl, rfl, by decide, by decide⟩, ⟨rfl, rfl, by decide, by decide⟩, ⟨by decide, by decide, by decide⟩,
    ⟨rfl, rfl⟩, ⟨rfl, rfl⟩, rfl, rfl, rfl, rfl, rfl, rfl, rfl, rfl⟩

theorem witness_StreamLengths : ([0#24] : List Pixel).length ≤ 1 ∧ 2 ≤ ([0#24, 0#24] : List Pixel).length := by decide

end Sys2Proof.Tests
end

section
/-! PROOFS. R8: no conversion reads what an earlier one left behind. The stale parts of a state (the contents of unfilled
palette slots, `CUR` while no run is active, the model's ports and its record of the host's reads) are erased by
`forgetStale`; every engine step commutes with the erasure, and after an accepted START the erased state is determined by
the launch alone. -/

namespace Sys2Proof.Machine

/-! ### Erasing what the engine does not read -/

/-- A palette slot without what R18 calls no value: the contents of an unfilled slot. -/
def forgetSlot (e : PalSlot) : PalSlot :=
  if e.palv = true then e else { palv := false, palc := 0#8, paln := 0 }

/-- The state without what holds no value (R18, R20) and without the model's ports and read log. -/
def forgetStale (s : State) : State :=
  { s with
    pal := s.pal.map forgetSlot
    cur := if s.curv = true then s.cur else 0#4
    ports := State.reset.ports
    seen := [] }

/-- The operation does the same to a state and to that state with its stale parts erased. -/
def IgnoresStale (f : State → Result) : Prop :=
  ∀ s, f (forgetStale s) = andThen (f s) fun t => .next (forgetStale t)

/-! ### Reads of an erased state -/

@[simp] theorem forgetSlot_palv (e : PalSlot) : (forgetSlot e).palv = e.palv := by
  unfold forgetSlot
  split <;> simp_all

theorem forgetSlot_of_filled {e : PalSlot} (h : e.palv = true) : forgetSlot e = e := if_pos h

@[simp] theorem forgetStale_out (s : State) : (forgetStale s).out = s.out := rfl
@[simp] theorem forgetStale_status (s : State) : (forgetStale s).status = s.status := rfl

theorem memRead_forgetStale (s : State) (k : Nat) : memRead (forgetStale s) k = memRead s k := rfl

theorem seqRow_forgetStale (s : State) : seqRow (forgetStale s) = seqRow s := rfl

theorem paletteColours_forgetStale (s : State) : paletteColours (forgetStale s) = paletteColours s := by
  unfold paletteColours forgetStale
  simp only [Vector.toList_map, List.all_map, List.map_map, Function.comp_def, forgetSlot_palv]
  split
  · rename_i filled
    exact congrArg _ (List.map_congr_left fun e he =>
      congrArg PalSlot.palc (forgetSlot_of_filled (List.all_eq_true.1 filled e he)))
  · rfl

theorem runDiffers_forgetStale (s : State) (idx : Nibble) : runDiffers (forgetStale s) idx = runDiffers s idx := by
  simp only [runDiffers_eq, forgetStale]
  split <;> rfl

theorem pendingRun_forgetStale (s : State) : pendingRun (forgetStale s) = pendingRun s := by
  simp only [pendingRun_eq, forgetStale]
  split <;> rfl

/-! ### The palette file -/

theorem insertPos_map_forgetSlot (pal : Vector PalSlot 16) (n : Nat) :
    insertPos (pal.map forgetSlot) n = insertPos pal n := by
  have test : ∀ e, (!(forgetSlot e).palv || decide ((forgetSlot e).paln < n)) = (!e.palv || decide (e.paln < n)) := by
    intro e
    cases h : e.palv
    · simp [h]
    · rw [forgetSlot_of_filled h, h]
  simp only [insertPos, Vector.toList_map, List.findIdx?_map, Function.comp_def, test]

theorem shiftInsert_map_forgetSlot (pal : Vector PalSlot 16) (j : Nat) (e : PalSlot) :
    shiftInsert (pal.map forgetSlot) j (forgetSlot e) = (shiftInsert pal j e).map forgetSlot := by
  ext1 i hi
  simp only [shiftInsert, Vector.getElem_ofFn, Vector.getElem_map, Fin.getElem_fin]
  split
  · rfl
  · split <;> rfl

theorem offerColour_map_forgetSlot (pal : Vector PalSlot 16) (q : Byte) (n : Nat) :
    offerColour (pal.map forgetSlot) q n = (offerColour pal q n).map forgetSlot := by
  simp only [offerColour, insertPos_map_forgetSlot]
  split
  · exact shiftInsert_map_forgetSlot pal _ { palv := true, palc := q, paln := n }
  · rfl

/-! ### Unit operations -/

theorem IgnoresStale.andThen {f g : State → Result} (hf : IgnoresStale f) (hg : IgnoresStale g) :
    IgnoresStale fun s => andThen (f s) g := by
  intro s
  simp only [hf s]
  cases f s with
  | next t => exact hg t
  | fault r => rfl
  | refused r => rfl

theorem IgnoresStale.withRead {α : Type} {e : State → Except Fault α} {f : α → State → Result}
    (he : ∀ s, e (forgetStale s) = e s) (hf : ∀ a, IgnoresStale (f a)) :
    IgnoresStale fun s => withRead (e s) fun a => f a s := by
  intro s
  simp only [he s]
  cases e s with
  | ok a => exact hf a s
  | error r => rfl

theorem IgnoresStale.ite {p : State → Prop} [DecidablePred p] {f g : State → Result}
    (hp : ∀ s, p (forgetStale s) ↔ p s) (hf : IgnoresStale f) (hg : IgnoresStale g) :
    IgnoresStale fun s => if p s then f s else g s := by
  intro s
  by_cases h : p s
  · simp only [hp s, h, if_true]; exact hf s
  · simp only [hp s, h, if_false]; exact hg s

theorem ignoresStale_next {f : State → State} (h : ∀ s, f (forgetStale s) = forgetStale (f s)) :
    IgnoresStale fun s => .next (f s) := fun s => congrArg _ (h s)

theorem ignoresStale_fault (r : Fault) : IgnoresStale fun _ => .fault r := fun _ => rfl

theorem execHistAcc_ignoresStale : IgnoresStale execHistAcc :=
  .withRead (fun s => memRead_forgetStale s s.k) fun _ =>
    .ite (fun _ => Iff.rfl) (ignoresStale_next fun _ => rfl) (ignoresStale_fault _)

theorem execPselIns_ignoresStale : IgnoresStale execPselIns := by
  refine .ite (fun _ => Iff.rfl) (ignoresStale_next fun s => ?_) (ignoresStale_fault _)
  simp only [forgetStale, offerColour_map_forgetSlot]

theorem execPalOut_ignoresStale : IgnoresStale execPalOut := by
  intro s
  by_cases hj : s.j < 16
  · cases filled : s.pal[s.j].palv
    · simp [execPalOut, forgetStale, hj, filled]
    · simp [execPalOut, forgetStale, hj, filled, forgetSlot_of_filled, emit]
  · simp [execPalOut, forgetStale, hj]

theorem execRawStep_ignoresStale : IgnoresStale execRawStep :=
  .withRead (fun s => memRead_forgetStale s s.k) fun _ => ignoresStale_next fun _ => rfl

theorem execBinStep_ignoresStale : IgnoresStale execBinStep :=
  .withRead (fun s => memRead_forgetStale s s.k) fun _ =>
    .ite (fun _ => Iff.rfl) (ignoresStale_fault _)
      (.ite (fun _ => Iff.rfl) (ignoresStale_next fun _ => rfl) (ignoresStale_next fun _ => rfl))

theorem execRleStep_ignoresStale : IgnoresStale execRleStep :=
  .withRead (fun s => memRead_forgetStale s s.k) fun _ =>
  .withRead paletteColours_forgetStale fun _ =>
  .withRead (fun s => runDiffers_forgetStale s _) fun _ =>
    .ite (fun _ => Iff.rfl)
      (.withRead pendingRun_forgetStale fun _ => ignoresStale_next fun _ => rfl)
      (ignoresStale_next fun _ => rfl)

theorem execRleEnd_ignoresStale : IgnoresStale execRleEnd :=
  .ite (fun _ => Iff.rfl)
    (.withRead pendingRun_forgetStale fun _ => ignoresStale_next fun _ => rfl)
    (ignoresStale_next fun _ => rfl)

/-! ### Engine steps -/

/-- Only operations that ignore stale state stand in the table of R87. -/
theorem runOp_ignoresStale {s : State} {r : SeqRow} (h : seqRow s = .ok (some r)) : IgnoresStale (runOp r.op) := by
  have noOp : IgnoresStale (runOp none) := fun _ => rfl
  have hdrW : IgnoresStale (runOp (some .hdrW)) := fun _ => rfl
  have hdrH : IgnoresStale (runOp (some .hdrH)) := fun _ => rfl
  rcases seqRow_eq_some h with ⟨-, rfl⟩ | ⟨-, -, rfl⟩ | ⟨-, -, rfl⟩ | ⟨-, -, rfl⟩ | ⟨-, -, rfl⟩ |
    ⟨-, -, rfl⟩ | ⟨-, -, rfl⟩ | ⟨-, -, rfl⟩ | ⟨-, -, rfl⟩ | ⟨-, -, -, rfl⟩ | ⟨-, -, -, rfl⟩ |
    ⟨-, -, -, rfl⟩ | ⟨-, -, -, rfl⟩ | ⟨-, -, -, rfl⟩
  · exact hdrW
  · exact hdrH
  · exact hdrH
  · exact execHistAcc_ignoresStale
  · exact noOp
  · exact execPselIns_ignoresStale
  · exact noOp
  · exact execPalOut_ignoresStale
  · exact noOp
  · exact execRawStep_ignoresStale
  · exact execBinStep_ignoresStale
  · exact execRleStep_ignoresStale
  · exact noOp
  · exact execRleEnd_ignoresStale

theorem applyRow_forgetStale (r : SeqRow) (s : State) : applyRow r (forgetStale s) = forgetStale (applyRow r s) := by
  obtain ⟨op, clears, next, completes⟩ := r
  cases clears with
  | none => rfl
  | some x => cases x <;> rfl

/-- No engine step reads a stale part, not even to fault (R8). -/
theorem engineStep_ignoresStale : IgnoresStale engineStep := by
  intro s
  unfold engineStep
  rw [seqRow_forgetStale]
  split
  · rfl
  · rfl
  · rename_i r hr
    exact (runOp_ignoresStale hr).andThen (ignoresStale_next (applyRow_forgetStale r)) s

/-- An engine step leaves the bench slot and the pending host moves alone. -/
theorem engineStep_keeps_pending {s t : State} (h : engineStep s = .next t) :
    t.bench = s.bench ∧ t.inbox = s.inbox := by
  rcases engineStep_cases h with ⟨-, rfl⟩ | ⟨-, rfl⟩ | ⟨-, -, rfl⟩ | ⟨-, -, rfl⟩ | ⟨-, -, op⟩ | ⟨-, -, rfl⟩ |
    ⟨-, -, op⟩ | ⟨-, -, rfl⟩ | ⟨-, -, op⟩ | ⟨-, -, rfl⟩ | ⟨-, -, -, op⟩ | ⟨-, -, -, op⟩ | ⟨-, -, -, op⟩ |
    ⟨-, -, -, rfl⟩ | ⟨-, -, -, rfl⟩
  · exact ⟨rfl, rfl⟩
  · exact ⟨rfl, rfl⟩
  · exact ⟨rfl, rfl⟩
  · exact ⟨rfl, rfl⟩
  · obtain ⟨-, -, -, rfl⟩ := execHistAcc_eq_next op
    exact ⟨rfl, rfl⟩
  · exact ⟨rfl, rfl⟩
  · obtain ⟨-, rfl⟩ := execPselIns_eq_next op
    exact ⟨rfl, rfl⟩
  · exact ⟨rfl, rfl⟩
  · obtain ⟨-, -, rfl⟩ := execPalOut_eq_next op
    exact ⟨rfl, rfl⟩
  · exact ⟨rfl, rfl⟩
  · obtain ⟨-, -, rfl⟩ := execRawStep_eq_next op
    exact ⟨rfl, rfl⟩
  · obtain ⟨-, -, -, ⟨-, rfl⟩ | ⟨-, -, rfl⟩⟩ := execBinStep_eq_next op <;> exact ⟨rfl, rfl⟩
  · obtain ⟨-, -, -, ⟨-, rfl⟩ | ⟨-, -, -, -, rfl⟩⟩ := execRleStep_eq_next op <;> exact ⟨rfl, rfl⟩
  · exact ⟨rfl, rfl⟩
  · exact ⟨rfl, rfl⟩

theorem engineStep_keeps_engineAlone {s t : State} (h : s.EngineAlone) (hs : engineStep s = .next t) :
    t.EngineAlone := by
  obtain ⟨hbench, hinbox⟩ := engineStep_keeps_pending hs
  exact ⟨hbench.trans h.1, hinbox.trans h.2⟩

theorem runSteps_ignoresStale {k : Nat} {s t : State} (alone : s.EngineAlone) (h : runSteps k s = .next t) :
    runSteps k (forgetStale s) = .next (forgetStale t) := by
  induction k generalizing s with
  | zero => cases h; rfl
  | succ k ih =>
    obtain ⟨u, hu, ht⟩ := andThen_eq_next h
    rw [step_engine alone.1 alone.2] at hu
    have hu' : step (forgetStale s) = .next (forgetStale u) := by
      rw [step_engine (s := forgetStale s) alone.1 alone.2, engineStep_ignoresStale s, hu]
      rfl
    rw [runSteps, hu']
    exact ih (engineStep_keeps_engineAlone alone hu) ht

/-! ### The launch -/

/-- A machine that has never run, holding the build, dimensions and image of `s`. -/
def launchOnly (s : State) : State :=
  { State.reset with cfg := s.cfg, width := s.width, height := s.height, img := s.img }

/-- An accepted command latches the launch and starts the conversion (R80). -/
theorem exec_commandOf_accepts (m : Mode) {s : State} (h : s.Accepts) :
    exec (commandOf m) s = .next (acceptStart ((wordOf m).extractLsb' 0 2) s) := by
  have runs : exec (commandOf m) s = .next (start (wordOf m) s) := by cases m <;> rfl
  have command : isCommand (wordOf m) = true := by cases m <;> rfl
  have dims : dimsTooLarge s = false := by
    cases strict : s.cfg.strictDims with
    | false => simp [dimsTooLarge, strict]
    | true => simp [dimsTooLarge, strict, h.dimsAllowed strict]
  rw [runs, start]
  simp [h.noError, h.notBusy, command, dims, Nat.not_lt.2 h.imageFits]

/-- Up to stale parts, START leaves nothing of the earlier state but the launch (R26). -/
theorem forgetStale_acceptStart (m : BitVec 2) {s : State} (h : s.EngineAlone) :
    forgetStale (acceptStart m s) = acceptStart m (launchOnly s) := by
  obtain ⟨hbench, hinbox⟩ := h
  simp only [forgetStale, acceptStart, launchOnly, clearBits, clearRun, clearPal, clearHist, hbench, hinbox]
  congr 1
  ext1 i hi
  simp [forgetSlot, State.reset]

/-- The run of a conversion, up to stale parts, is the run of its launch on a machine that has never run. -/
theorem conversion_of_launchOnly {m : Mode} {k : Nat} {s s1 t : State} (alone : s.EngineAlone) (accepts : s.Accepts)
    (hs : exec (commandOf m) s = .next s1) (hrun : runSteps k s1 = .next t) :
    runSteps k (acceptStart ((wordOf m).extractLsb' 0 2) (launchOnly s)) = .next (forgetStale t) := by
  rw [exec_commandOf_accepts m accepts] at hs
  cases hs
  rw [← forgetStale_acceptStart _ alone]
  exact runSteps_ignoresStale alone hrun

/-- Settles O54: both runs are, up to stale parts, the one run of their common launch. -/
theorem conversionsAreIndependent : Obligations.ConversionsAreIndependent := by
  intro m s s' s1 s1' t t' alone alone' accepts accepts' _ hcfg hwidth hheight himg hs hs' hrun hrun'
  have launch : launchOnly s' = launchOnly s := by simp only [launchOnly, hcfg, hwidth, hheight, himg]
  have run := conversion_of_launchOnly alone accepts hs hrun
  have run' := conversion_of_launchOnly alone' accepts' hs' hrun'
  rw [launch, run] at run'
  have same : forgetStale t' = forgetStale t := (Host.Outcome.next.inj run').symm
  exact ⟨by simpa using congrArg State.out same, by simpa using congrArg State.status same⟩

end Sys2Proof.Machine
end

section
/-! PROOFS. What an instruction, an engine step, a host move and a step can do, said once, and the statements about single
steps that follow from it: what stays unchanged, and what the host's register accesses and an accepted command do. -/

namespace Sys2Proof.Machine

/-! ### What an instruction leaves alone -/

/-- No instruction writes the build, the image, the dimension registers, the bench slot or the host's side. -/
structure InstrFrame (s t : State) : Prop where
  cfg : t.cfg = s.cfg := by simp
  img : t.img = s.img := by simp
  width : t.width = s.width := by simp
  height : t.height = s.height := by simp
  inbox : t.inbox = s.inbox := by simp
  seen : t.seen = s.seen := by simp
  bench : t.bench = s.bench := by simp

/-- A unit operation also leaves the launch, `PHASE` and `STATUS` alone, and `OUT` only grows (R32, R107). -/
structure UnitFrame (s t : State) : Prop extends InstrFrame s t where
  lw : t.lw = s.lw := by simp
  lh : t.lh = s.lh := by simp
  lmode : t.lmode = s.lmode := by simp
  n : t.n = s.n := by simp
  phase : t.phase = s.phase := by simp
  status : t.status = s.status := by simp
  out : s.out <+: t.out := by exact List.prefix_rfl

theorem start_frame (c : Byte) (s : State) : InstrFrame s (start c s) ∧ (start c s).ports = s.ports := by
  rcases start_cases c s with ⟨-, e⟩ | ⟨-, -, ⟨-, e⟩ | ⟨-, -, e⟩ | ⟨-, -, -, e⟩ | ⟨-, -, -, e⟩⟩ <;> rw [e] <;>
    exact ⟨{}, rfl⟩

/-- The three kinds of instruction: a command is START with its word, `QUANT`, `DIST` and `MATCH` write their port, and
every other unit operation writes unit registers and `OUT`. -/
theorem exec_cases {i : Instr} {s t : State} (h : exec i s = .next t) :
    ((i = .encNormal ∨ i = .encBinary ∨ i = .encCompressed) ∧ ∃ c, t = start c s) ∨
    ((i = .quant ∨ i = .dist ∨ i = .matchIdx) ∧ ∃ p, t = { s with ports := p }) ∨
    (UnitFrame s t ∧ t.ports = s.ports) := by
  cases i with
  | encNormal | encBinary | encCompressed => cases h; exact .inl ⟨by simp, _, rfl⟩
  | quant | dist => cases h; exact .inr (.inl ⟨by simp, _, rfl⟩)
  | matchIdx =>
    obtain ⟨-, rfl⟩ := execMatchIdx_eq_next h
    exact .inr (.inl ⟨by simp, _, rfl⟩)
  | histClr | pselClr | rleClr | binClr => cases h; exact .inr (.inr ⟨{}, rfl⟩)
  | hdrW | hdrH => cases h; exact .inr (.inr ⟨{ out := List.prefix_append _ _ }, rfl⟩)
  | histAcc =>
    obtain ⟨-, -, -, rfl⟩ := execHistAcc_eq_next h
    exact .inr (.inr ⟨{}, rfl⟩)
  | pselIns =>
    obtain ⟨-, rfl⟩ := execPselIns_eq_next h
    exact .inr (.inr ⟨{}, rfl⟩)
  | rleStep =>
    obtain ⟨-, -, -, ⟨-, rfl⟩ | ⟨-, -, -, -, rfl⟩⟩ := execRleStep_eq_next h
    · exact .inr (.inr ⟨{ out := List.prefix_append _ _ }, rfl⟩)
    · exact .inr (.inr ⟨{}, rfl⟩)
  | rleEnd =>
    rw [execRleEnd_eq_next h]
    exact .inr (.inr ⟨{ out := List.prefix_append _ _ }, rfl⟩)
  | binStep =>
    obtain ⟨-, -, -, ⟨-, rfl⟩ | ⟨-, -, rfl⟩⟩ := execBinStep_eq_next h
    · exact .inr (.inr ⟨{ out := List.prefix_append _ _ }, rfl⟩)
    · exact .inr (.inr ⟨{}, rfl⟩)
  | rawStep =>
    obtain ⟨-, -, rfl⟩ := execRawStep_eq_next h
    exact .inr (.inr ⟨{ out := List.prefix_append _ _ }, rfl⟩)
  | palOut =>
    obtain ⟨-, -, rfl⟩ := execPalOut_eq_next h
    exact .inr (.inr ⟨{ out := List.prefix_append _ _ }, rfl⟩)

theorem exec_frame {i : Instr} {s t : State} (h : exec i s = .next t) : InstrFrame s t := by
  rcases exec_cases h with ⟨-, c, rfl⟩ | ⟨-, p, rfl⟩ | ⟨frame, -⟩
  · exact (start_frame c s).1
  · exact {}
  · exact frame.toInstrFrame

theorem exec_unitFrame {i : Instr} {s t : State} (h : exec i s = .next t)
    (unit : ¬ (i = .encNormal ∨ i = .encBinary ∨ i = .encCompressed)) : UnitFrame s t := by
  rcases exec_cases h with ⟨command, -⟩ | ⟨-, p, rfl⟩ | ⟨frame, -⟩
  · exact absurd command unit
  · exact {}
  · exact frame

/-- Settles O44: by the kinds of instruction. -/
theorem instructionsLeaveTheImageAndTheLaunchAlone : Obligations.InstructionsLeaveTheImageAndTheLaunchAlone := by
  intro i s t h
  have frame := exec_frame h
  refine ⟨frame.cfg, frame.img, imgWord_eq_of_img frame.img, frame.width, frame.height, frame.inbox, frame.seen,
    frame.bench, fun hN hB hC => ?_, fun hQ hD hM => ?_, fun port => ?_⟩
  · have unit := exec_unitFrame h (by simp [hN, hB, hC])
    exact ⟨unit.lw, unit.lh, unit.lmode, unit.n, unit.phase, unit.status, unit.out⟩
  · rcases exec_cases h with ⟨-, c, rfl⟩ | ⟨port, -⟩ | ⟨-, ports⟩
    · exact (start_frame c s).2
    · simp [hQ, hD, hM] at port
    · exact ports
  · rcases port with rfl | rfl | rfl
    · cases h; rfl
    · cases h; rfl
    · obtain ⟨-, rfl⟩ := execMatchIdx_eq_next h
      rfl

/-! ### What an engine step leaves alone -/

/-- The sequencer's rows hold unit operations only (R87). -/
theorem seqRow_op_isUnit {s : State} {r : SeqRow} {i : Instr} (h : seqRow s = .ok (some r)) (hop : r.op = some i) :
    ¬ (i = .encNormal ∨ i = .encBinary ∨ i = .encCompressed) := by
  rcases seqRow_eq_some h with ⟨-, rfl⟩ | ⟨-, -, rfl⟩ | ⟨-, -, rfl⟩ | ⟨-, -, rfl⟩ | ⟨-, -, rfl⟩ | ⟨-, -, rfl⟩ |
    ⟨-, -, rfl⟩ | ⟨-, -, rfl⟩ | ⟨-, -, rfl⟩ | ⟨-, -, -, rfl⟩ | ⟨-, -, -, rfl⟩ | ⟨-, -, -, rfl⟩ | ⟨-, -, -, rfl⟩ |
    ⟨-, -, -, rfl⟩ <;> cases hop <;> simp

theorem engineStep_keeps_launch {s t : State} (h : engineStep s = .next t) :
    t.lw = s.lw ∧ t.lh = s.lh ∧ t.lmode = s.lmode ∧ t.n = s.n ∧ t.img = s.img ∧ s.out <+: t.out := by
  rcases engineStep_eq_next h with ⟨-, rfl⟩ | ⟨r, u, hr, hu, rfl⟩
  · exact ⟨rfl, rfl, rfl, rfl, rfl, List.prefix_rfl⟩
  · have frame : UnitFrame s u := by
      cases hop : r.op with
      | none => rw [hop] at hu; cases hu; exact {}
      | some i => rw [hop] at hu; exact exec_unitFrame hu (seqRow_op_isUnit hr hop)
    simpa using ⟨frame.lw, frame.lh, frame.lmode, frame.n, frame.img, frame.out⟩

/-! ### What a host move and a step can do -/

/-- What the host move `m` can do to a machine with the move taken off its queue. -/
inductive HostEffect (m : HostMove) (s : State) : State → Prop
  | sees (l : List Nat) : HostEffect m s { s with seen := l }
  | starts (c : Byte) : HostEffect m s (start c s)
  | setsWidth (v : Nat) : HostEffect m s { s with width := dimOfWrite s.cfg v }
  | setsHeight (v : Nat) : HostEffect m s { s with height := dimOfWrite s.cfg v }
  | writesImage (k : Nat) (w : Pixel) (idle : s.status.busy = false) (inMemory : k < s.cfg.imgWords) :
      HostEffect m s { s with img := Img.set s.img k w }
  | resets (isReset : m = .reset) : HostEffect m s (hwReset s)
  | runsEngine (q : List HostMove) {t : State} (run : engineStep { s with inbox := q } = .next t) : HostEffect m s t

/-- A write to `CMD` is START with the low 8 bits of the value, whether they decode or not (R10, R80). -/
theorem csrWrite_cmd (v : Nat) (s : State) : csrWrite 0 v s = .next (start (commandWord v) s) := by
  have word : commandWord (commandWord v).toNat = commandWord v := by
    simp only [commandWord, BitVec.ofNat_toNat, BitVec.setWidth_eq]
  rw [← hostMove_wr_cmd]
  simp only [hostMove, csrWrite, word]

theorem csrWrite_absent {reg : Nat} (h : 4 ≤ reg) (v : Nat) (s : State) :
    csrWrite reg v s = .refused (.csrAbsent reg) := by
  obtain ⟨r, rfl⟩ := Nat.exists_eq_add_of_le' h
  rfl

theorem csrRead_absent {reg : Nat} (h : 4 ≤ reg) (s : State) : csrRead reg s = .refused (.csrAbsent reg) := by
  obtain ⟨r, rfl⟩ := Nat.exists_eq_add_of_le' h
  rfl

theorem csrWrite_effect {m : HostMove} {reg v : Nat} {s t : State} (h : csrWrite reg v s = .next t) :
    HostEffect m s t := by
  match reg with
  | 0 => rw [csrWrite_cmd] at h; cases h; exact .starts _
  | 1 => cases h; exact .sees s.seen
  | 2 => cases h; exact .setsWidth v
  | 3 => cases h; exact .setsHeight v
  | r + 4 => cases h

theorem csrRead_effect {m : HostMove} {reg : Nat} {s t : State} (h : csrRead reg s = .next t) : HostEffect m s t := by
  match reg with
  | 0 | 1 | 2 | 3 => cases h; exact .sees _
  | r + 4 => cases h

theorem hostMove_effect {m : HostMove} {s t : State} (h : hostMove m s = .next t) : HostEffect m s t := by
  cases m with
  | wr reg v => exact csrWrite_effect h
  | rd reg => exact csrRead_effect h
  | imgWr k w =>
    simp only [hostMove, imgHostWrite] at h
    split at h
    · cases h
    · split at h <;> cases h
      exact .writesImage k w (by simpa using ‹¬ s.status.busy = true›) ‹_›
  | imgRd k =>
    simp only [hostMove, imgHostRead] at h
    split at h <;> cases h
    exact .sees _
  | outRd i =>
    simp only [hostMove, outHostRead] at h
    split at h <;> cases h
    exact .sees _
  | readout => cases h; exact .sees _
  | reset => cases h; exact .resets rfl
  | wait =>
    simp only [hostMove, hostWait] at h
    split at h
    · cases h; exact .sees s.seen
    · exact .runsEngine _ h
  | tick => exact .runsEngine s.inbox h

/-- With no operation on the bench, a step is the oldest host move's or the engine's, and a reset only if the host asked
for one. -/
theorem step_effect {s t : State} (bench : s.bench = none) (h : step s = .next t) :
    ∃ m q, (m = .reset → s.inbox.head? = some .reset) ∧ HostEffect m { s with inbox := q } t := by
  cases hq : s.inbox with
  | nil =>
    rw [step_engine bench hq] at h
    exact ⟨.tick, s.inbox, nofun, .runsEngine s.inbox h⟩
  | cons m rest =>
    rw [step_host bench hq] at h
    exact ⟨m, rest, by rintro rfl; rfl, hostMove_effect h⟩

/-- Settles O45: by what a step can do; START is ignored and an image write refused while `BUSY` = 1. -/
theorem runningConversionKeepsItsLaunch : Obligations.RunningConversionKeepsItsLaunch := by
  intro s t inv busy noReset h
  obtain ⟨m, q, asked, effect⟩ := step_effect inv.benchEmpty h
  cases effect with
  | sees | setsWidth | setsHeight => exact ⟨rfl, rfl, rfl, rfl, rfl, List.prefix_rfl⟩
  | starts c =>
    have ignored : start c { s with inbox := q } = { s with inbox := q } := by simp [start, busy]
    rw [ignored]
    exact ⟨rfl, rfl, rfl, rfl, rfl, List.prefix_rfl⟩
  | writesImage k w idle => exact absurd (idle.symm.trans busy) Bool.false_ne_true
  | resets isReset => exact absurd (asked isReset) noReset
  | runsEngine _ run => exact (engineStep_keeps_launch run :)

/-! ### Register accesses and commands -/

theorem dimOfWrite_toNat {g : Config} (ok : g.wf = true) (v : Nat) : (dimOfWrite g v).toNat = v % 2 ^ g.dimBits := by
  have bits : g.dimBits ≤ 16 := by
    simp only [Config.wf, Bool.and_eq_true, decide_eq_true_eq] at ok
    exact ok.1.1.2
  have low : v % 2 ^ g.dimBits < 2 ^ 16 :=
    (Nat.mod_lt v (Nat.two_pow_pos _)).trans_le (Nat.pow_le_pow_right Nat.two_pos bits)
  simp only [dimOfWrite, BitVec.toNat_ofNat, Nat.mod_eq_of_lt low]

/-- Settles O40: the access of each register number, by its row in the model. -/
theorem dimensionWritesKeepTheLowBits : Obligations.DimensionWritesKeepTheLowBits := by
  intro s rest reg v bench inbox ok
  rw [step_host bench inbox]
  refine ⟨?_, ?_, ?_, fun absent => csrWrite_absent absent v _⟩
  · rintro rfl; rfl
  · rintro rfl; exact ⟨_, dimOfWrite_toNat ok v, rfl⟩
  · rintro rfl; exact ⟨_, dimOfWrite_toNat ok v, rfl⟩

theorem statusWord_toNat (t : Status) :
    t.word.toNat = t.busy.toNat + 2 * t.done.toNat + 4 * t.err.toNat + 8 * t.ecode.toNat := by
  obtain ⟨busy, done, err, ecode⟩ := t
  revert busy done err ecode
  decide

/-- Settles O39: the layout of the word, and the access of each register number by its row in the model. -/
theorem registerReadsHaveNoSideEffect : Obligations.RegisterReadsHaveNoSideEffect := by
  refine ⟨statusWord_toNat, fun s rest reg bench inbox => ?_⟩
  rw [step_host bench inbox]
  refine ⟨?_, ?_, ?_, ?_, fun absent => csrRead_absent absent _⟩ <;> rintro rfl <;> rfl

/-- Settles O4: the step is the host move, and the word decodes. -/
theorem writeToCmdRunsTheDecodedCommand : Obligations.WriteToCmdRunsTheDecodedCommand := by
  intro s v rest i bench inbox decodes
  rw [step_host bench inbox]
  simp only [hostMove, csrWrite, commandWord, decodes]

/-- Settles O35: an accepted command is `acceptStart`, whose fields the rules of R26 give. -/
theorem acceptedStartInitialisesTheConversion : Obligations.AcceptedStartInitialisesTheConversion := by
  intro m s accepts
  exact ⟨Vector.replicate 256 0, (clearPal s).pal, s.cur, exec_commandOf_accepts m accepts, histGet_clear,
    fun i => congrArg PalSlot.palv (clearPal_slot s i)⟩

end Sys2Proof.Machine
end

section
/-! PROOFS. Every step keeps the invariant of the machine: one lemma per row of R87 and per host move that changes what the
invariant speaks of, put together by what a step can do (`step_effect`, `engineStep_cases`). -/

namespace Sys2Proof.Machine

/-! ### Facts about single fields -/

/-- `ACC` stays below 2^`NBITS` (R21). -/
theorem shiftInBit_toNat_lt {acc : Byte} {n : Nat} (h : acc.toNat < 2 ^ n) (b : Bool) :
    (shiftInBit acc b).toNat < 2 ^ (n + 1) := by
  have bit : ((BitVec.ofBool b).setWidth 8).toNat < 2 ^ (n + 1) := by
    have := Nat.one_lt_two_pow (Nat.succ_ne_zero n)
    cases b <;> simp
  have shifted : (acc <<< 1).toNat < 2 ^ (n + 1) := by
    rw [BitVec.toNat_shiftLeft, Nat.shiftLeft_eq]
    exact (Nat.mod_le _ _).trans_lt (by omega)
  rw [shiftInBit, BitVec.toNat_or]
  exact Nat.or_lt_two_pow shifted bit

theorem isCommand_mode {c : Byte} (h : isCommand c = true) : c.extractLsb' 0 2 ≠ 3#2 := by
  simp only [isCommand, CodeWord.wf, Bool.and_eq_true, bne_iff_ne] at h
  exact h.2

/-- Counting one pixel raises no counter by more than one. -/
theorem histGet_histSet_succ_le {h : Vector Nat 256} {k : Nat} (bound : ∀ q, histGet h q ≤ k) (p q : Byte) :
    histGet (histSet h p (histGet h p + 1)) q ≤ k + 1 := by
  by_cases same : q = p
  · subst same
    rw [histGet_histSet_same]
    exact Nat.succ_le_succ (bound q)
  · rw [histGet_histSet_other h _ same]
    exact (bound q).trans (Nat.le_succ k)

/-! ### Engine steps -/

section
variable {s : State} (inv : s.Inv)
include inv

theorem State.Inv.notDone_of_running (running : s.phase.running = true) : s.status.done ≠ true := by
  intro done
  rw [inv.doneAtDone done] at running
  cases running

theorem State.Inv.noError_of_running (running : s.phase.running = true) : s.status.err ≠ true := by
  intro err
  rw [← inv.busyIsRunning, (inv.errStopped err).1] at running
  cases running

/-- `PHASE` moves from one running phase to another, which finds what it needs; the facts are asked for only where the new
phase has them. -/
theorem State.Inv.moveTo {p : Phase} (running : s.phase.running = true) (running' : p.running = true)
    (compressed : p = .hist ∨ p = .psel ∨ p = .palout → s.lmode = 2#2 := by simp)
    (fresh : p = .hdr0 ∨ p = .hdr1 → ∀ q, histGet s.hist q = 0 := by simp)
    (bound : p = .hist → ∀ q, histGet s.hist q ≤ s.k := by simp)
    (unfilled : p = .hdr0 ∨ p = .hdr1 ∨ p = .hist → ∀ i : Fin 16, s.pal[i].palv = false := by simp)
    (filling : p = .psel → ∀ i : Fin 16, s.pal[i].palv = true ↔ i.val < s.c := by simp)
    (filled : p = .palout ∨ (p = .scan ∧ s.lmode = 2#2) → ∀ i : Fin 16, s.pal[i].palv = true := by simp) :
    { s with phase := p }.Inv :=
  { inv with
    busyIsRunning := inv.busyIsRunning.trans (running.trans running'.symm)
    doneAtDone := fun done => absurd done (inv.notDone_of_running running)
    compressedPhase := compressed
    histFresh := fresh
    histBound := bound
    palFresh := unfilled
    palFilling := filling
    palFilled := filled }

/-- Completion (R88). -/
theorem State.Inv.complete (running : s.phase.running = true) :
    { s with status := s.status.completed, phase := .done }.Inv :=
  { inv with
    busyIsRunning := rfl
    doneAtDone := fun _ => rfl
    errStopped := fun err => absurd err (inv.noError_of_running running)
    causeOfError := inv.causeOfError
    compressedPhase := by simp
    histFresh := by simp
    histBound := by simp
    palFresh := by simp
    palFilling := by simp
    palFilled := by simp }

theorem State.Inv.withOut (l : List Byte) : { s with out := l }.Inv := { inv with }

/-- The scan starts over, outside the histogram pass. -/
theorem State.Inv.rescan (hp : s.phase ≠ .hist) : { s with k := 0 }.Inv :=
  { inv with kBound := Nat.zero_le _, histBound := fun h => absurd h hp }

/-- The scan goes on, outside the histogram pass. -/
theorem State.Inv.scanned (hk : s.k < s.n) : { s with k := s.k + 1 }.Inv :=
  { inv with kBound := hk, histBound := fun h q => (inv.histBound h q).trans (Nat.le_succ _) }

variable {t : State}

theorem execHistAcc_keeps_inv (hp : s.phase = .hist) (h : execHistAcc s = .next t) : t.Inv := by
  obtain ⟨hk, -, -, rfl⟩ := execHistAcc_eq_next h
  exact { inv.scanned hk with
    histFresh := by simp [hp]
    histBound := fun _ q => histGet_histSet_succ_le (inv.histBound hp) _ q }

theorem execPselIns_keeps_inv (hp : s.phase = .psel) (h : execPselIns s = .next t) : t.Inv := by
  obtain ⟨hc, rfl⟩ := execPselIns_eq_next h
  exact { inv with
    cBound := hc
    palFresh := by simp [hp]
    palFilling := fun _ => offerColour_filled (inv.palFilling hp)
    palFilled := by simp [hp] }

theorem execPalOut_keeps_inv (h : execPalOut s = .next t) : t.Inv := by
  obtain ⟨hj, -, rfl⟩ := execPalOut_eq_next h
  exact { inv with jBound := hj }

theorem execRawStep_keeps_inv (h : execRawStep s = .next t) : t.Inv := by
  obtain ⟨hk, -, rfl⟩ := execRawStep_eq_next h
  exact (inv.scanned hk).withOut _

theorem execBinStep_keeps_inv (h : execBinStep s = .next t) : t.Inv := by
  obtain ⟨hk, -, -, ⟨-, rfl⟩ | ⟨notFull, -, rfl⟩⟩ := execBinStep_eq_next h
  · exact { inv.scanned hk with bitsBound := Nat.zero_le 7, accBound := Nat.one_pos }
  · have bits := inv.bitsBound
    exact { inv.scanned hk with
      bitsBound := (by omega : s.nbits + 1 ≤ 7)
      accBound := shiftInBit_toNat_lt inv.accBound _ }

theorem execRleStep_keeps_inv (h : execRleStep s = .next t) : t.Inv := by
  obtain ⟨hk, -, -, ⟨-, rfl⟩ | ⟨-, -, -, -, rfl⟩⟩ := execRleStep_eq_next h <;>
    exact { inv.scanned hk with }

theorem engineStep_keeps_inv (h : engineStep s = .next t) : t.Inv := by
  have runs {p : Phase} (hp : s.phase = p) (running : p.running = true) : s.phase.running = true := hp ▸ running
  rcases engineStep_cases h with ⟨-, rfl⟩ | ⟨hp, rfl⟩ | ⟨hp, hl, rfl⟩ | ⟨hp, hl, rfl⟩ | ⟨hp, -, op⟩ | ⟨hp, -, rfl⟩ |
    ⟨hp, -, op⟩ | ⟨hp, hc, rfl⟩ | ⟨-, -, op⟩ | ⟨hp, -, rfl⟩ | ⟨-, -, -, op⟩ | ⟨-, -, -, op⟩ | ⟨-, -, -, op⟩ |
    ⟨hp, -, -, rfl⟩ | ⟨hp, -, -, rfl⟩
  · exact inv
  · have moved := inv.moveTo (p := .hdr1) (runs hp rfl) rfl
      (fresh := fun _ => inv.histFresh (.inl hp)) (unfilled := fun _ => inv.palFresh (.inl hp))
    exact moved.withOut _
  · have moved := (inv.rescan (by simp [hp])).moveTo (p := .hist) (runs hp rfl) rfl
      (compressed := fun _ => hl) (bound := fun _ q => (inv.histFresh (.inr hp) q).le)
      (unfilled := fun _ => inv.palFresh (.inr (.inl hp)))
    exact moved.withOut _
  · have moved := (inv.rescan (by simp [hp])).moveTo (p := .scan) (runs hp rfl) rfl
      (filled := by rcases hl with hl | hl <;> simp [hl])
    exact moved.withOut _
  · exact execHistAcc_keeps_inv inv hp op
  · have start : { s with c := 0 }.Inv := { inv with cBound := Nat.zero_le _, palFilling := by simp [hp] }
    exact start.moveTo (p := .psel) (runs hp rfl) rfl
      (compressed := fun _ => inv.compressedPhase (.inl hp))
      (filling := fun _ i =>
        iff_of_false (ne_true_of_eq_false (inv.palFresh (.inr (.inr hp)) i)) (Nat.not_lt_zero _))
  · exact execPselIns_keeps_inv inv hp op
  · have start : { s with j := 0 }.Inv := { inv with jBound := Nat.zero_le _ }
    exact start.moveTo (p := .palout) (runs hp rfl) rfl
      (compressed := fun _ => inv.compressedPhase (.inr (.inl hp)))
      (filled := fun _ i => (inv.palFilling hp i).2 (by omega))
  · exact execPalOut_keeps_inv inv op
  · exact (inv.rescan (by simp [hp])).moveTo (p := .scan) (runs hp rfl) rfl
      (filled := fun _ => inv.palFilled (.inl hp))
  · exact execRawStep_keeps_inv inv op
  · exact execBinStep_keeps_inv inv op
  · exact execRleStep_keeps_inv inv op
  · exact inv.complete (runs hp rfl)
  · exact (inv.complete (runs hp rfl)).withOut _

/-! ### Host moves -/

/-- A refusal on an idle engine, with one of the causes of R93. -/
theorem takeRefusal_keeps_inv {code : BitVec 3} (idle : s.status.busy = false)
    (cause : code = 1#3 ∨ code = 2#3 ∨ code = 3#3) : (takeRefusal code s).Inv :=
  { inv with
    busyIsRunning := inv.busyIsRunning
    doneAtDone := nofun
    errStopped := fun _ => ⟨idle, rfl⟩
    causeOfError := cause }

theorem acceptStart_keeps_inv {m : BitVec 2} (mode : m ≠ 3#2)
    (fits : s.width.toNat * s.height.toNat ≤ s.cfg.imgWords) : (acceptStart m s).Inv where
  buildOk := inv.buildOk
  widthFits := inv.widthFits
  heightFits := inv.heightFits
  lwFits := inv.widthFits
  lhFits := inv.heightFits
  nIsProduct := rfl
  imageFits := fits
  busyIsRunning := rfl
  doneAtDone := nofun
  errStopped := nofun
  causeOfError := rfl
  kBound := Nat.zero_le _
  cBound := Nat.zero_le _
  jBound := Nat.zero_le _
  legalMode := mode
  bitsBound := Nat.zero_le _
  accBound := Nat.one_pos
  imgCanonical := inv.imgCanonical
  imgInRange := inv.imgInRange
  compressedPhase := by simp
  histFresh := fun _ => histGet_clear
  histBound := nofun
  palFresh := by simp
  palFilling := nofun
  palFilled := by simp
  benchEmpty := inv.benchEmpty

theorem start_keeps_inv (c : Byte) : (start c s).Inv := by
  rcases start_cases c s with ⟨-, e⟩ | ⟨-, idle, ⟨-, e⟩ | ⟨-, -, e⟩ | ⟨-, -, -, e⟩ | ⟨command, -, fits, e⟩⟩ <;> rw [e]
  · exact inv
  · exact takeRefusal_keeps_inv inv idle (.inl rfl)
  · exact takeRefusal_keeps_inv inv idle (.inr (.inl rfl))
  · exact takeRefusal_keeps_inv inv idle (.inr (.inr rfl))
  · exact acceptStart_keeps_inv inv (isCommand_mode command) fits

theorem State.Inv.writeImage {k : Nat} (w : Pixel) (inMemory : k < s.cfg.imgWords) :
    { s with img := Img.set s.img k w }.Inv :=
  { inv with
    imgCanonical := img_set_wf k w inv.imgCanonical
    imgInRange := fun e he => by
      rcases img_mem_set he with rfl | he
      · exact inMemory
      · exact inv.imgInRange e he }

end

/-- The reset keeps only the build, the image and the host's side (R104). -/
theorem hwReset_inv {s : State} (buildOk : s.cfg.wf = true) (canonical : Img.wf s.img)
    (inRange : ∀ e ∈ s.img, e.1 < s.cfg.imgWords) (bench : s.bench = none) : (hwReset s).Inv where
  buildOk := buildOk
  widthFits := Nat.two_pow_pos _
  heightFits := Nat.two_pow_pos _
  lwFits := Nat.two_pow_pos _
  lhFits := Nat.two_pow_pos _
  nIsProduct := rfl
  imageFits := Nat.zero_le _
  busyIsRunning := rfl
  doneAtDone := nofun
  errStopped := nofun
  causeOfError := rfl
  kBound := Nat.zero_le _
  cBound := Nat.zero_le _
  jBound := Nat.zero_le _
  legalMode := (by decide : 0#2 ≠ 3#2)
  bitsBound := Nat.zero_le _
  accBound := Nat.one_pos
  imgCanonical := canonical
  imgInRange := inRange
  compressedPhase := by simp [State.reset]
  histFresh := by simp [State.reset]
  histBound := nofun
  palFresh := by simp [State.reset]
  palFilling := nofun
  palFilled := by simp [State.reset]
  benchEmpty := bench

/-- Settles O46: `State.reset` is its own hardware reset. -/
theorem invariantHoldsAtReset : Obligations.InvariantHoldsAtReset :=
  hwReset_inv (s := State.reset) (by decide) reset_img_wf (by simp [State.reset]) rfl

theorem HostEffect.keeps_inv {m : HostMove} {s t : State} (effect : HostEffect m s t) (inv : s.Inv) : t.Inv := by
  cases effect with
  | sees l => exact { inv with }
  | starts c => exact start_keeps_inv inv c
  | setsWidth v =>
    exact { inv with widthFits := (dimOfWrite_toNat inv.buildOk v).trans_lt (Nat.mod_lt _ (Nat.two_pow_pos _)) }
  | setsHeight v =>
    exact { inv with heightFits := (dimOfWrite_toNat inv.buildOk v).trans_lt (Nat.mod_lt _ (Nat.two_pow_pos _)) }
  | writesImage k w _ inMemory => exact inv.writeImage w inMemory
  | resets => exact hwReset_inv inv.buildOk inv.imgCanonical inv.imgInRange inv.benchEmpty
  | runsEngine q run =>
    have queued : { s with inbox := q }.Inv := { inv with }
    exact engineStep_keeps_inv queued run

/-- Settles O47: by what a step can do. -/
theorem everyStepKeepsTheInvariant : Obligations.EveryStepKeepsTheInvariant := by
  intro s t inv h
  obtain ⟨m, q, -, effect⟩ := step_effect inv.benchEmpty h
  exact effect.keeps_inv { inv with }

end Sys2Proof.Machine
end

section
/-! PROOFS. The palette stays in rank order from selection to the end of the conversion: an insertion where R63 looks for one
keeps the order, and no other step changes filled entries while the order is claimed. -/

namespace Sys2Proof.Machine

/-! ### An insertion keeps the order -/

/-- Entry `a` stands before entry `b` in the order of R18: by count descending, then by colour ascending. -/
def PalSlot.Outranks (a b : PalSlot) : Prop := b.paln < a.paln ∨ (a.paln = b.paln ∧ a.palc.toNat < b.palc.toNat)

/-- The filled entries stand in the order of R18. -/
def RankSorted (pal : Vector PalSlot 16) : Prop := ∀ i j : Fin 16, i < j → pal[j].palv = true → pal[i].Outranks pal[j]

theorem shiftInsert_sorted {pal : Vector PalSlot 16} {p : Nat} {e : PalSlot} (sorted : RankSorted pal)
    (before : ∀ i : Fin 16, i.val < p → pal[i].Outranks e)
    (after : ∀ i : Fin 16, p ≤ i.val → pal[i].palv = true → e.Outranks pal[i]) : RankSorted (shiftInsert pal p e) := by
  intro i j hij filled
  rw [shiftInsert_getElem] at filled
  rw [shiftInsert_getElem, shiftInsert_getElem]
  rcases Nat.lt_trichotomy j.val p with hj | hj | hj
  · have hi : i.val < p := by omega
    simp only [hi, hj, if_true] at filled ⊢
    exact sorted i j hij filled
  · have hi : i.val < p := by omega
    simp only [hi, hj, Nat.lt_irrefl, if_true, if_false]
    exact before i hi
  · have hj1 : ¬ j.val < p := by omega
    have hj2 : j.val ≠ p := by omega
    simp only [hj1, hj2, if_false] at filled ⊢
    rcases Nat.lt_trichotomy i.val p with hi | hi | hi
    · simp only [hi, if_true]
      exact sorted i ⟨j.val - 1, by omega⟩ (by simp only [Fin.lt_def]; omega) filled
    · simp only [hi, Nat.lt_irrefl, if_true, if_false]
      exact after ⟨j.val - 1, by omega⟩ (by simp only; omega) filled
    · have hi1 : ¬ i.val < p := by omega
      have hi2 : i.val ≠ p := by omega
      simp only [hi1, hi2, if_false]
      exact sorted ⟨i.val - 1, by omega⟩ ⟨j.val - 1, by omega⟩ (by simp only [Fin.lt_def]; omega) filled

/-- Colours are offered in increasing order to a palette filled from the front, so the place R63 finds is the one the order
asks for. -/
theorem offerColour_sorted {pal : Vector PalSlot 16} {c n : Nat} {q : Byte} (sorted : RankSorted pal)
    (front : ∀ i : Fin 16, pal[i].palv = true ↔ i.val < c)
    (smaller : ∀ i : Fin 16, pal[i].palv = true → pal[i].palc.toNat < q.toNat) : RankSorted (offerColour pal q n) := by
  unfold offerColour
  split
  · rename_i p found
    obtain ⟨hp, here, earlier⟩ := insertPos_eq_some found
    refine shiftInsert_sorted sorted (fun i hi => ?_) (fun i hi filled => ?_)
    · obtain ⟨filled, count⟩ := earlier i.val hi
      rcases count.lt_or_eq with more | same
      · exact .inl more
      · exact .inr ⟨same.symm, smaller i filled⟩
    · have filledHere : pal[p].palv = true := (front ⟨p, hp⟩).2 (hi.trans_lt ((front i).1 filled))
      have fewerHere : pal[p].paln < n := here.resolve_left (by simp [filledHere])
      rcases hi.lt_or_eq with later | rfl
      · rcases sorted ⟨p, hp⟩ i later filled with fewer | ⟨same, -⟩
        · exact .inl (fewer.trans fewerHere)
        · exact .inl (same ▸ fewerHere)
      · exact .inl fewerHere
  · exact sorted

/-- Offering a colour adds its entry and no other. -/
theorem offerColour_slot (pal : Vector PalSlot 16) (q : Byte) (n : Nat) (i : Fin 16) :
    (offerColour pal q n)[i] = { palv := true, palc := q, paln := n } ∨ ∃ j : Fin 16, (offerColour pal q n)[i] = pal[j] := by
  unfold offerColour
  split
  · rw [shiftInsert_getElem]
    split
    · exact .inr ⟨i, rfl⟩
    · split
      · exact .inl rfl
      · exact .inr ⟨⟨i.val - 1, by omega⟩, rfl⟩
  · exact .inr ⟨i, rfl⟩

/-! ### Steps -/

/-- The phases in which the order is claimed (R18). -/
def State.HoldsPalette (s : State) : Prop := s.phase = .psel ∨ s.phase = .palout ∨ (s.phase = .scan ∧ s.lmode = 2#2)

theorem paletteOrdered_of_not_holds {s : State} (h : ¬ s.HoldsPalette) : s.PaletteOrdered where
  ordered := fun holds => absurd holds h
  countsOfHist := fun holds => absurd holds h
  offered := fun psel => absurd (.inl psel) h

theorem paletteOrdered_of_unfilled {s : State} (h : ∀ i : Fin 16, s.pal[i].palv ≠ true) : s.PaletteOrdered where
  ordered := fun _ _ j _ filled => absurd filled (h j)
  countsOfHist := fun _ i filled => absurd filled (h i)
  offered := fun _ i filled => absurd filled (h i)

section
variable {s t : State} (ord : s.PaletteOrdered)
include ord

/-- Selection is over: the palette is kept, and nothing is said of colours still to be offered. -/
theorem State.PaletteOrdered.moveOn {p : Phase} (holds : s.HoldsPalette) (built : p ≠ .psel) :
    { s with phase := p }.PaletteOrdered where
  ordered := fun _ => ord.ordered holds
  countsOfHist := fun _ => ord.countsOfHist holds
  offered := fun psel => absurd psel built

theorem execPselIns_keeps_paletteOrdered (inv : s.Inv) (hp : s.phase = .psel) (h : execPselIns s = .next t) :
    t.PaletteOrdered := by
  obtain ⟨hc, rfl⟩ := execPselIns_eq_next h
  have colour : (BitVec.ofNat 8 s.c).toNat = s.c := by rw [BitVec.toNat_ofNat]; exact Nat.mod_eq_of_lt hc
  have slot := offerColour_slot s.pal (BitVec.ofNat 8 s.c) (histGet s.hist (BitVec.ofNat 8 s.c))
  exact {
    ordered := fun _ => offerColour_sorted (ord.ordered (.inl hp)) (inv.palFilling hp)
      (fun i filled => (ord.offered hp i filled).trans_eq colour.symm)
    countsOfHist := fun _ i => by
      rcases slot i with new | ⟨j, old⟩
      · simp only [new, implies_true]
      · simp only [old]; exact ord.countsOfHist (.inl hp) j
    offered := fun _ i => by
      rcases slot i with new | ⟨j, old⟩
      · simp only [new, colour, Nat.lt_succ_self, implies_true]
      · simp only [old]; exact fun filled => (ord.offered hp j filled).trans (Nat.lt_succ_self _) }

theorem engineStep_keeps_paletteOrdered (inv : s.Inv) (h : engineStep s = .next t) : t.PaletteOrdered := by
  rcases engineStep_cases h with ⟨-, rfl⟩ | ⟨-, rfl⟩ | ⟨-, -, rfl⟩ | ⟨-, hl, rfl⟩ | ⟨hp, -, op⟩ | ⟨hp, -, rfl⟩ |
    ⟨hp, -, op⟩ | ⟨hp, -, rfl⟩ | ⟨-, -, op⟩ | ⟨hp, -, rfl⟩ | ⟨-, -, -, op⟩ | ⟨-, -, -, op⟩ | ⟨-, -, -, op⟩ |
    ⟨-, -, -, rfl⟩ | ⟨-, -, -, rfl⟩
  · exact ord
  · exact paletteOrdered_of_not_holds (by simp [State.HoldsPalette])
  · exact paletteOrdered_of_not_holds (by simp [State.HoldsPalette])
  · exact paletteOrdered_of_not_holds (by rcases hl with hl | hl <;> simp [State.HoldsPalette, hl])
  · obtain ⟨-, -, -, rfl⟩ := execHistAcc_eq_next op
    exact paletteOrdered_of_not_holds (by simp [State.HoldsPalette, hp])
  · exact paletteOrdered_of_unfilled fun i => ne_true_of_eq_false (inv.palFresh (.inr (.inr hp)) i)
  · exact execPselIns_keeps_paletteOrdered ord inv hp op
  · have start : { s with j := 0 }.PaletteOrdered := { ord with }
    exact start.moveOn (p := .palout) (.inl hp) (by simp)
  · obtain ⟨-, -, rfl⟩ := execPalOut_eq_next op
    exact { ord with }
  · have start : { s with k := 0 }.PaletteOrdered := { ord with }
    exact start.moveOn (p := .scan) (.inr (.inl hp)) (by simp)
  · obtain ⟨-, -, rfl⟩ := execRawStep_eq_next op
    exact { ord with }
  · obtain ⟨-, -, -, ⟨-, rfl⟩ | ⟨-, -, rfl⟩⟩ := execBinStep_eq_next op <;> exact { ord with }
  · obtain ⟨-, -, -, ⟨-, rfl⟩ | ⟨-, -, -, -, rfl⟩⟩ := execRleStep_eq_next op <;> exact { ord with }
  · exact paletteOrdered_of_not_holds (by simp [State.HoldsPalette])
  · exact paletteOrdered_of_not_holds (by simp [State.HoldsPalette])

theorem start_keeps_paletteOrdered (c : Byte) : (start c s).PaletteOrdered := by
  rcases start_cases c s with ⟨-, e⟩ | ⟨-, -, ⟨-, e⟩ | ⟨-, -, e⟩ | ⟨-, -, -, e⟩ | ⟨-, -, -, e⟩⟩ <;> rw [e]
  · exact ord
  · exact { ord with }
  · exact { ord with }
  · exact { ord with }
  · exact paletteOrdered_of_not_holds (by simp [State.HoldsPalette])

end

theorem HostEffect.keeps_paletteOrdered {m : HostMove} {s t : State} (effect : HostEffect m s t) (inv : s.Inv)
    (ord : s.PaletteOrdered) : t.PaletteOrdered := by
  cases effect with
  | sees | setsWidth | setsHeight | writesImage => exact { ord with }
  | starts c => exact start_keeps_paletteOrdered ord c
  | resets => exact paletteOrdered_of_not_holds (by simp [State.HoldsPalette, State.reset])
  | runsEngine q run =>
    have queued : { s with inbox := q }.PaletteOrdered := { ord with }
    exact engineStep_keeps_paletteOrdered queued { inv with } run

/-- Settles O48: by what a step can do; only `PSEL.INS` changes the palette while its order is claimed. -/
theorem everyStepKeepsThePaletteOrdered : Obligations.EveryStepKeepsThePaletteOrdered := by
  intro s t inv ord h
  obtain ⟨m, q, -, effect⟩ := step_effect inv.benchEmpty h
  exact effect.keeps_paletteOrdered { inv with } { ord with }

end Sys2Proof.Machine
end

section
/-! PROOFS. The memory spaces as the host reads and writes them (R27, R28, R32, R36, R39, R106). -/

namespace Sys2Proof.Machine

/-! ### Host accesses to the image memory and the output stream -/

theorem imgHostWrite_next {s : State} {k : Nat} (w : Pixel) (idle : s.status.busy = false) (hk : k < s.cfg.imgWords) :
    imgHostWrite k w s = .next { s with img := Img.set s.img k w } := by
  simp [imgHostWrite, idle, hk]

theorem imgHostWrite_busy {s : State} (k : Nat) (w : Pixel) (busy : s.status.busy = true) :
    imgHostWrite k w s = .refused .imgWriteWhileBusy := by
  simp [imgHostWrite, busy]

theorem imgHostWrite_absent {s : State} {k : Nat} (w : Pixel) (idle : s.status.busy = false) (hk : s.cfg.imgWords ≤ k) :
    imgHostWrite k w s = .fault .imgOutOfRange := by
  simp [imgHostWrite, idle, Nat.not_lt.2 hk]

theorem imgHostRead_next {s : State} {k : Nat} (hk : k < s.cfg.imgWords) :
    imgHostRead k s = .next (hostSees (imgWord s k).toNat s) := if_pos hk

theorem imgHostRead_absent {s : State} {k : Nat} (hk : s.cfg.imgWords ≤ k) :
    imgHostRead k s = .fault .imgOutOfRange := if_neg (Nat.not_lt.2 hk)

theorem outHostRead_next {s : State} {i : Nat} (hi : i < s.out.length) :
    outHostRead i s = .next (hostSees s.out[i].toNat s) := by
  simp [outHostRead, hi]

theorem outHostRead_absent {s : State} {i : Nat} (hi : s.out.length ≤ i) :
    outHostRead i s = .fault .outOutOfRange := by
  simp [outHostRead, hi]

/-- A read that only records its value, made twice. -/
theorem hostMove_twice {m : HostMove} {s : State} {v : Nat} (first : hostMove m s = .next (hostSees v s))
    (second : hostMove m (hostSees v s) = .next (hostSees v (hostSees v s))) :
    andThen (hostMove m s) (hostMove m) = .next { s with seen := s.seen ++ [v, v] } := by
  rw [first, andThen_next, second]
  simp [hostSees]

theorem imgWord_set_same (s : State) (k : Nat) (w : Pixel) : imgWord { s with img := Img.set s.img k w } k = w := by
  simp [imgWord, img_get_set_same]

theorem imgWord_set_other (s : State) {k k' : Nat} (w : Pixel) (h : k' ≠ k) :
    imgWord { s with img := Img.set s.img k w } k' = imgWord s k' := by
  simp [imgWord, img_get_set_other _ _ h]

/-- Settles O41: the laws of the image memory, in the step that makes the move. -/
theorem imageWriteChangesOneWord : Obligations.ImageWriteChangesOneWord := by
  intro s rest k w bench inbox
  rw [step_host bench inbox]
  refine ⟨fun idle hk canonical => ?_, fun busy => imgHostWrite_busy k w busy,
    fun idle absent => imgHostWrite_absent w idle absent⟩
  exact ⟨Img.set s.img k w, imgHostWrite_next w idle hk, img_set_wf k w canonical, imgWord_set_same s k w,
    fun k' => imgWord_set_other s w⟩

/-- Settles O56: a read that exists only records its value, and the state it leaves answers the next read the same. -/
theorem streamAndImageReadsHaveNoSideEffect : Obligations.StreamAndImageReadsHaveNoSideEffect := by
  intro s
  refine ⟨fun i hi => ?_, fun i => outHostRead_absent, ⟨s.out.map BitVec.toNat, rfl, by simp, by simp +contextual⟩,
    fun k hk => ?_, fun k => imgHostRead_absent⟩
  · have first := outHostRead_next hi
    have second := outHostRead_next (s := hostSees s.out[i].toNat s) hi
    exact ⟨first, hostMove_twice (m := .outRd i) first second⟩
  · have first := imgHostRead_next hk
    have second := imgHostRead_next (s := hostSees (imgWord s k).toNat s) hk
    exact ⟨first, hostMove_twice (m := .imgRd k) first second⟩

end Sys2Proof.Machine
end

section
/-! PROOFS. The machine's folds over the pixels and the colours are the closed functions of the spec: counting pixel by
pixel is `buildHistogram` (R60), offering the colours in increasing order is `selectPalette` (R64, R65), shifting bits in
one by one is `binaryPayload` (R77). -/

namespace Sys2Proof.Machine

/-! ### Counting pixels -/

/-- The counter file after the pixels have been counted one by one, as `HIST.ACC` counts them (R59). -/
def countPixels (h : Vector Nat 256) (px : List Pixel) : Vector Nat 256 :=
  px.foldl (fun h p => histSet h (quantize p) (histGet h (quantize p) + 1)) h

theorem histGet_countPixels (h : Vector Nat 256) (px : List Pixel) (q : Byte) :
    histGet (countPixels h px) q = histGet h q + buildHistogram px q := by
  induction px generalizing h with
  | nil => rfl
  | cons p px ih =>
    rw [countPixels, List.foldl_cons, ← countPixels, ih, buildHistogram, buildHistogram, List.countP_cons]
    by_cases same : quantize p = q
    · subst same
      simp only [histGet_histSet_same, beq_self_eq_true, if_true]
      omega
    · simp [histGet_histSet_other _ _ (Ne.symm same), same]

theorem histGet_countPixels_clear (px : List Pixel) :
    histGet (countPixels (Vector.replicate 256 0) px) = buildHistogram px := by
  funext q
  rw [histGet_countPixels, histGet_clear, Nat.zero_add]

/-! ### Selecting the palette -/

/-- The palette after the colours have been offered one by one with their counts, as `PSEL.INS` offers them (R63). -/
def offerColours (h : Byte → Nat) (pal : Vector PalSlot 16) (qs : List Byte) : Vector PalSlot 16 :=
  qs.foldl (fun p q => offerColour p q (h q)) pal

/-- The colours of the 16 slots. -/
def paletteBytes (pal : Vector PalSlot 16) : List Byte := pal.toList.map fun e => e.palc

/-- The slot holds the colour with its count, or is unfilled where there is none. -/
inductive SlotHolds (h : Byte → Nat) : PalSlot → Option Byte → Prop
  | filled (q : Byte) : SlotHolds h { palv := true, palc := q, paln := h q } (some q)
  | unfilled {e : PalSlot} (free : e.palv = false) : SlotHolds h e none

/-- The palette holds the first 16 of the colours `qs`, in their order and with their counts, and nothing more. -/
structure HoldsColours (h : Byte → Nat) (pal : Vector PalSlot 16) (qs : List Byte) : Prop where
  slots : ∀ i : Fin 16, SlotHolds h pal[i] qs[i.val]?

theorem SlotHolds.eq_of_some {h : Byte → Nat} {e : PalSlot} {q : Byte} (holds : SlotHolds h e (some q)) :
    e = { palv := true, palc := q, paln := h q } := by
  cases holds
  rfl

theorem SlotHolds.free_of_none {h : Byte → Nat} {e : PalSlot} (holds : SlotHolds h e none) : e.palv = false := by
  cases holds
  assumption

theorem HoldsColours.slot_of_some {h : Byte → Nat} {pal : Vector PalSlot 16} {qs : List Byte}
    (holds : HoldsColours h pal qs) {i : Nat} (hi : i < 16) {q : Byte} (hq : qs[i]? = some q) :
    pal[i] = { palv := true, palc := q, paln := h q } :=
  SlotHolds.eq_of_some (hq ▸ holds.slots ⟨i, hi⟩)

theorem HoldsColours.free_of_none {h : Byte → Nat} {pal : Vector PalSlot 16} {qs : List Byte}
    (holds : HoldsColours h pal qs) {i : Nat} (hi : i < 16) (hq : qs[i]? = none) : pal[i].palv = false :=
  SlotHolds.free_of_none (hq ▸ holds.slots ⟨i, hi⟩)

/-- Where R63 puts a colour of count `n` among the colours `qs`: before the first of a smaller count, or at the end. -/
def rankPos (h : Byte → Nat) (n : Nat) (qs : List Byte) : Nat := qs.findIdx fun b => decide (h b < n)

theorem HoldsColours.filled_before {h : Byte → Nat} {pal : Vector PalSlot 16} {qs : List Byte} {n : Nat}
    (holds : HoldsColours h pal qs) {i : Nat} (hi : i < 16) (before : i < rankPos h n qs) :
    pal[i].palv = true ∧ n ≤ pal[i].paln := by
  have inside : i < qs.length := before.trans_le List.findIdx_le_length
  have notFewer := List.not_of_lt_findIdx before
  rw [holds.slot_of_some hi (List.getElem?_eq_getElem inside)]
  exact ⟨rfl, by simpa using notFewer⟩

theorem HoldsColours.qualifies_at {h : Byte → Nat} {pal : Vector PalSlot 16} {qs : List Byte} {n : Nat}
    (holds : HoldsColours h pal qs) (hp : rankPos h n qs < 16) :
    pal[rankPos h n qs].palv = false ∨ pal[rankPos h n qs].paln < n := by
  cases hq : qs[rankPos h n qs]? with
  | none => exact .inl (holds.free_of_none hp hq)
  | some q =>
    obtain ⟨inside, rfl⟩ := List.getElem?_eq_some_iff.1 hq
    rw [holds.slot_of_some hp hq]
    exact .inr (of_decide_eq_true (List.findIdx_getElem (w := inside)))

theorem insertPos_of_least {pal : Vector PalSlot 16} {n j : Nat} (hj : j < 16)
    (here : pal[j].palv = false ∨ pal[j].paln < n)
    (earlier : ∀ i (hi : i < j), pal[i].palv = true ∧ n ≤ pal[i].paln) : insertPos pal n = some j := by
  rw [insertPos, List.findIdx?_eq_some_iff_getElem]
  exact ⟨by simpa using hj, by simpa using here, fun i hi => by simpa using earlier i hi⟩

theorem insertPos_of_full {pal : Vector PalSlot 16} {n : Nat}
    (full : ∀ i : Fin 16, pal[i].palv = true ∧ n ≤ pal[i].paln) : insertPos pal n = none := by
  cases found : insertPos pal n with
  | none => rfl
  | some j =>
    obtain ⟨hj, unfilled | fewer, -⟩ := insertPos_eq_some found
    · exact absurd ((full ⟨j, hj⟩).1.symm.trans unfilled) Bool.false_ne_true.symm
    · exact absurd fewer (Nat.not_lt.2 (full ⟨j, hj⟩).2)

/-- Offering a colour inserts it where its count belongs (R63). -/
theorem HoldsColours.offer {h : Byte → Nat} {pal : Vector PalSlot 16} {qs : List Byte} (holds : HoldsColours h pal qs)
    (q : Byte) : HoldsColours h (offerColour pal q (h q)) (qs.insertIdx (rankPos h (h q) qs) q) := by
  have inList : rankPos h (h q) qs ≤ qs.length := List.findIdx_le_length
  constructor
  intro i
  rw [List.getElem?_insertIdx]
  by_cases inside : rankPos h (h q) qs < 16
  · have found := insertPos_of_least inside (holds.qualifies_at inside)
      fun i hi => holds.filled_before (hi.trans inside) hi
    simp only [offerColour, found, shiftInsert_getElem]
    rcases Nat.lt_trichotomy i.val (rankPos h (h q) qs) with hi | hi | hi
    · simp only [hi, if_true]
      exact holds.slots i
    · simp only [hi, Nat.lt_irrefl, if_true, if_false, inList]
      exact .filled q
    · simp only [Nat.lt_asymm hi, hi.ne', if_false]
      exact holds.slots ⟨i.val - 1, by omega⟩
  · have found := insertPos_of_full fun i : Fin 16 => holds.filled_before i.isLt (n := h q) (by omega)
    have hi : i.val < rankPos h (h q) qs := by omega
    simp only [offerColour, found, hi, if_true]
    exact holds.slots i

/-- Among colours of smaller value, the place of R63 is the place in the order of R65. -/
theorem orderedInsert_eq_insertIdx (h : Byte → Nat) {q : Byte} {qs : List Byte}
    (smaller : ∀ b ∈ qs, b.toNat < q.toNat) :
    qs.orderedInsert (ranksBefore h) q = qs.insertIdx (rankPos h (h q) qs) q := by
  induction qs with
  | nil => rfl
  | cons b qs ih =>
    obtain ⟨hb, hqs⟩ := List.forall_mem_cons.1 smaller
    have first : ranksBefore h q b ↔ h b < h q := or_iff_left fun tie => absurd tie.2 (Nat.lt_asymm hb)
    rw [List.orderedInsert_cons, rankPos, List.findIdx_cons]
    by_cases fewer : h b < h q
    · simp [first, fewer]
    · simp [first, fewer, ih hqs, rankPos]

/-- Offering colours in increasing order keeps the palette the first 16 of those offered so far, in the order of R65. -/
theorem offerColours_holds {h : Byte → Nat} {pal : Vector PalSlot 16} {sorted qs : List Byte}
    (holds : HoldsColours h pal sorted) (increasing : qs.Pairwise fun a b => a.toNat < b.toNat)
    (smaller : ∀ b ∈ sorted, ∀ q ∈ qs, b.toNat < q.toNat) :
    HoldsColours h (offerColours h pal qs) (qs.foldl (fun l q => l.orderedInsert (ranksBefore h) q) sorted) := by
  induction qs generalizing pal sorted with
  | nil => exact holds
  | cons q qs ih =>
    obtain ⟨later, increasing⟩ := List.pairwise_cons.1 increasing
    have offered := holds.offer q
    rw [← orderedInsert_eq_insertIdx h fun b hb => smaller b hb q List.mem_cons_self] at offered
    refine ih offered increasing fun b hb q' hq' => ?_
    rcases (List.mem_orderedInsert _).1 hb with rfl | hb
    · exact later q' hq'
    · exact smaller b hb q' (List.mem_cons_of_mem q hq')

theorem allColours_increasing : allColours.Pairwise fun a b => a.toNat < b.toNat := by
  simp only [allColours, List.pairwise_map, BitVec.toNat_ofNat]
  refine List.pairwise_lt_range.imp_of_mem fun ha hb hab => ?_
  rw [List.mem_range] at ha hb
  rwa [Nat.mod_eq_of_lt ha, Nat.mod_eq_of_lt hb]

theorem ranksBefore_trans (h : Byte → Nat) {a b c : Byte} (hab : ranksBefore h a b) (hbc : ranksBefore h b c) :
    ranksBefore h a c := by
  unfold ranksBefore at *
  omega

theorem ranksBefore_asymm {h : Byte → Nat} {a b : Byte} (hab : ranksBefore h a b) : ¬ ranksBefore h b a := by
  unfold ranksBefore at *
  omega

theorem ranksBefore_of_not {h : Byte → Nat} {a b : Byte} (differ : a ≠ b) (hab : ¬ ranksBefore h a b) :
    ranksBefore h b a := by
  have := mt BitVec.eq_of_toNat_eq differ
  unfold ranksBefore at *
  omega

theorem orderedInsert_pairwise {h : Byte → Nat} {q : Byte} {qs : List Byte} (new : q ∉ qs)
    (sorted : qs.Pairwise (ranksBefore h)) : (qs.orderedInsert (ranksBefore h) q).Pairwise (ranksBefore h) := by
  induction qs with
  | nil => exact List.pairwise_singleton _ q
  | cons b qs ih =>
    obtain ⟨differ, new⟩ := not_or.1 (mt List.mem_cons.2 new)
    obtain ⟨first, rest⟩ := List.pairwise_cons.1 sorted
    rw [List.orderedInsert_cons]
    split
    · rename_i before
      refine List.pairwise_cons.2 ⟨List.forall_mem_cons.2 ⟨before, fun b' hb' => ?_⟩, sorted⟩
      exact ranksBefore_trans h before (first b' hb')
    · rename_i after
      refine List.pairwise_cons.2 ⟨fun b' hb' => ?_, ih new rest⟩
      rcases (List.mem_orderedInsert _).1 hb' with rfl | hb'
      · exact ranksBefore_of_not differ after
      · exact first b' hb'

/-- Sorting distinct colours puts them in the order of R65, which is strict. -/
theorem insertionSort_pairwise (h : Byte → Nat) {qs : List Byte} (distinct : qs.Nodup) :
    (qs.insertionSort (ranksBefore h)).Pairwise (ranksBefore h) := by
  induction qs with
  | nil => exact .nil
  | cons q qs ih =>
    obtain ⟨new, distinct⟩ := List.nodup_cons.1 distinct
    exact orderedInsert_pairwise (mt (List.mem_insertionSort _).1 new) (ih distinct)

theorem allColours_nodup : allColours.Nodup :=
  allColours_increasing.imp fun lt => mt (congrArg BitVec.toNat) (Nat.ne_of_lt lt)

/-- The colours sorted from the front are the colours sorted from the back: the order of R65 leaves no choice. -/
theorem foldl_orderedInsert_eq_insertionSort (h : Byte → Nat) :
    allColours.foldl (fun l q => l.orderedInsert (ranksBefore h) q) [] = allColours.insertionSort (ranksBefore h) := by
  have back : allColours.foldl (fun l q => l.orderedInsert (ranksBefore h) q) [] =
      allColours.reverse.insertionSort (ranksBefore h) := List.foldr_reverse.symm
  have perm : (allColours.reverse.insertionSort (ranksBefore h)).Perm (allColours.insertionSort (ranksBefore h)) :=
    ((List.perm_insertionSort _ _).trans (List.reverse_perm _)).trans (List.perm_insertionSort _ _).symm
  rw [back]
  exact perm.eq_of_pairwise (fun _ _ _ _ ab ba => absurd ba (ranksBefore_asymm ab))
    (insertionSort_pairwise h (List.nodup_reverse.2 allColours_nodup)) (insertionSort_pairwise h allColours_nodup)

/-- Offering all colours to an unfilled palette selects the palette of R65. -/
theorem paletteBytes_offerColours (h : Byte → Nat) {pal : Vector PalSlot 16}
    (unfilled : ∀ i : Fin 16, pal[i].palv = false) :
    paletteBytes (offerColours h pal allColours) = selectPalette h := by
  have holds : HoldsColours h (offerColours h pal allColours) (allColours.insertionSort (ranksBefore h)) := by
    have empty : HoldsColours h pal [] := ⟨fun i => .unfilled (unfilled i)⟩
    have offered := offerColours_holds empty allColours_increasing fun _ hb => absurd hb List.not_mem_nil
    rwa [foldl_orderedInsert_eq_insertionSort] at offered
  have length : (allColours.insertionSort (ranksBefore h)).length = 256 := by
    rw [List.length_insertionSort, allColours, List.length_map, List.length_range]
  refine List.ext_getElem ?_ fun i hi hi' => ?_
  · rw [selectPalette, List.length_take, length, paletteBytes, List.length_map, Vector.length_toList]
    rfl
  have inside : i < 16 := by simpa [paletteBytes] using hi
  have slot := holds.slot_of_some inside (List.getElem?_eq_getElem (by omega))
  simp [paletteBytes, selectPalette, slot]

/-! ### Packing bits -/

/-- The bytes of binary mode still to come from a scan with the accumulator `acc`, which holds `n` bits (R76). -/
def packBits (acc : Byte) (n : Nat) : List Pixel → List Byte
  | [] => []
  | p :: px =>
    if n + 1 = 8 ∨ px = [] then packedByte (shiftInBit acc (thresholdBit p)) (n + 1) :: packBits 0#8 0 px
    else packBits (shiftInBit acc (thresholdBit p)) (n + 1) px

/-- What the pixel at scan position `j` adds to a byte whose bit `e` is its place (R77), 0 for a missing pixel. -/
def bitWeight (px : List Pixel) (j e : Nat) : Nat :=
  match px[j]? with
  | some p => if thresholdBit p = true then 2 ^ e else 0
  | none => 0

/-- The low `m` + 1 bits of a byte, taken from the next pixels. -/
def groupBits (px : List Pixel) (m : Nat) : Nat := ((List.range (m + 1)).map fun j => bitWeight px j (m - j)).sum

theorem groupBits_nil (m : Nat) : groupBits [] m = 0 := by
  simp [groupBits, bitWeight]

theorem groupBits_zero (p : Pixel) (px : List Pixel) : groupBits (p :: px) 0 = bitWeight (p :: px) 0 0 := by
  simp [groupBits]

theorem groupBits_succ (p : Pixel) (px : List Pixel) (m : Nat) :
    groupBits (p :: px) (m + 1) = bitWeight (p :: px) 0 (m + 1) + groupBits px m := by
  simp [groupBits, List.range_succ_eq_map (n := m + 1), Function.comp_def, bitWeight]

theorem packedGroup_zero (px : List Pixel) : packedGroup px 0 = BitVec.ofNat 8 (groupBits px 7) := by
  simp only [packedGroup, Nat.mul_zero, Nat.zero_add]
  rfl

theorem packedGroup_succ (px : List Pixel) (i : Nat) : packedGroup px (i + 1) = packedGroup (px.drop 8) i := by
  simp only [packedGroup, List.getElem?_drop, Nat.mul_succ, Nat.add_comm 8, Nat.add_right_comm]

theorem shiftInBit_eq_add (acc : Byte) (b : Bool) : shiftInBit acc b = acc <<< 1 + BitVec.ofNat 8 b.toNat := by
  revert acc b
  decide

theorem shiftInBit_shiftLeft (acc : Byte) (p : Pixel) (px : List Pixel) (m : Nat) :
    shiftInBit acc (thresholdBit p) <<< m = acc <<< (m + 1) + BitVec.ofNat 8 (bitWeight (p :: px) 0 m) := by
  have bit : BitVec.ofNat 8 (thresholdBit p).toNat <<< m = BitVec.ofNat 8 (bitWeight (p :: px) 0 m) := by
    refine BitVec.eq_of_toNat_eq ?_
    cases h : thresholdBit p <;> simp [bitWeight, h, Nat.shiftLeft_eq]
  rw [shiftInBit_eq_add, BitVec.shiftLeft_add_distrib, ← BitVec.shiftLeft_add, Nat.add_comm 1 m, bit]

/-- With `n` bits collected and room for `m` + 1 more, the first byte is made of those bits and of the next pixels'. -/
theorem packBits_eq_cons (acc : Byte) {n m : Nat} (room : n + m = 7) {px : List Pixel} (pixels : px ≠ []) :
    packBits acc n px = (acc <<< (m + 1) + BitVec.ofNat 8 (groupBits px m)) :: packBits 0#8 0 (px.drop (m + 1)) := by
  induction px generalizing acc n m with
  | nil => exact absurd rfl pixels
  | cons p px ih =>
    rw [packBits]
    by_cases last : n + 1 = 8 ∨ px = []
    · have alone : groupBits (p :: px) m = bitWeight (p :: px) 0 m := by
        rcases last with full | rfl
        · obtain rfl : m = 0 := by omega
          exact groupBits_zero p px
        · cases m with
          | zero => exact groupBits_zero p []
          | succ m => rw [groupBits_succ, groupBits_nil, Nat.add_zero]
      have rest : (p :: px).drop (m + 1) = px := by
        rcases last with full | rfl
        · obtain rfl : m = 0 := by omega
          rfl
        · simp
      have shift : 8 - (n + 1) = m := by omega
      rw [if_pos last, packedByte, shift, shiftInBit_shiftLeft acc p px, alone, rest]
    · obtain ⟨notFull, more⟩ := not_or.1 last
      obtain ⟨m, rfl⟩ : ∃ m', m = m' + 1 := ⟨m - 1, by omega⟩
      rw [if_neg last, ih _ (by omega : n + 1 + m = 7) more, shiftInBit_shiftLeft acc p px, groupBits_succ,
        BitVec.ofNat_add, BitVec.add_assoc]
      rfl

theorem binaryPayload_eq_cons {px : List Pixel} (pixels : px ≠ []) :
    binaryPayload px = packedGroup px 0 :: binaryPayload (px.drop 8) := by
  have positive := List.length_pos_iff.2 pixels
  have groups : (px.length + 7) / 8 = ((px.drop 8).length + 7) / 8 + 1 := by
    rw [List.length_drop]
    omega
  simp [binaryPayload, groups, List.range_succ_eq_map, Function.comp_def, packedGroup_succ]

/-- Packing bit by bit gives the bytes of R77. -/
theorem packBits_eq_binaryPayload (px : List Pixel) : packBits 0#8 0 px = binaryPayload px := by
  by_cases empty : px = []
  · subst empty
    rfl
  · rw [packBits_eq_cons 0#8 (Nat.zero_add 7) empty, binaryPayload_eq_cons empty, packedGroup_zero,
      packBits_eq_binaryPayload (px.drop 8), BitVec.zero_shiftLeft, BitVec.zero_add]
termination_by px.length
decreasing_by
  have positive := List.length_pos_iff.2 empty
  rw [List.length_drop]
  omega

end Sys2Proof.Machine
end

section
/-! PROOFS. The course of a conversion (R87, R111): how many steps it still takes (`stepsLeft`) and
which stream its present state leads to (`forecast`). Each engine step takes one off the first and keeps the second. -/

namespace Sys2Proof.Machine

/-! ### The steps still to come -/

/-- How many engine steps the sequencer still takes to `DONE`, by its position (R87, R111). -/
def State.stepsLeft (s : State) : Nat :=
  match s.phase with
  | .idle => 0
  | .done => 0
  | .hdr0 => if s.lmode = 2#2 then 2 * s.n + 278 else s.n + 3
  | .hdr1 => if s.lmode = 2#2 then 2 * s.n + 277 else s.n + 2
  | .hist => s.n - s.k + s.n + 276
  | .psel => 256 - s.c + s.n + 19
  | .palout => 16 - s.j + s.n + 2
  | .scan => s.n - s.k + 1

/-- Every step of a running engine counts one step down. -/
theorem engineStep_stepsLeft {s t : State} (running : s.phase.running = true) (h : engineStep s = .next t) :
    t.stepsLeft + 1 = s.stepsLeft := by
  rcases engineStep_cases h with ⟨hp, -⟩ | ⟨hp, rfl⟩ | ⟨hp, hl, rfl⟩ | ⟨hp, hl, rfl⟩ | ⟨hp, hk, op⟩ | ⟨hp, hk, rfl⟩ |
    ⟨hp, hc, op⟩ | ⟨hp, hc, rfl⟩ | ⟨hp, hj, op⟩ | ⟨hp, hj, rfl⟩ | ⟨hp, hk, -, op⟩ | ⟨hp, hk, -, op⟩ | ⟨hp, hk, -, op⟩ |
    ⟨hp, hk, -, rfl⟩ | ⟨hp, hk, -, rfl⟩
  · rcases hp with hp | hp <;> rw [hp] at running <;> cases running
  · simp only [State.stepsLeft, hp]
    split <;> rfl
  · simp only [State.stepsLeft, hp, hl, if_true]
    omega
  · have notCompressed : s.lmode ≠ 2#2 := by rcases hl with hl | hl <;> simp [hl]
    simp only [State.stepsLeft, hp, notCompressed, if_false]
    omega
  · obtain ⟨-, -, -, rfl⟩ := execHistAcc_eq_next op
    simp only [State.stepsLeft, hp]
    omega
  · simp only [State.stepsLeft, hp]
    omega
  · obtain ⟨-, rfl⟩ := execPselIns_eq_next op
    simp only [State.stepsLeft, hp]
    omega
  · simp only [State.stepsLeft, hp]
    omega
  · obtain ⟨-, -, rfl⟩ := execPalOut_eq_next op
    simp only [State.stepsLeft, hp]
    omega
  · simp only [State.stepsLeft, hp]
    omega
  · obtain ⟨-, -, rfl⟩ := execRawStep_eq_next op
    simp only [State.stepsLeft, hp]
    omega
  · obtain ⟨-, -, -, ⟨-, rfl⟩ | ⟨-, -, rfl⟩⟩ := execBinStep_eq_next op <;> simp only [State.stepsLeft, hp] <;> omega
  · obtain ⟨-, -, -, ⟨-, rfl⟩ | ⟨-, -, -, -, rfl⟩⟩ := execRleStep_eq_next op <;> simp only [State.stepsLeft, hp] <;> omega
  · simp only [State.stepsLeft, hp]
    omega
  · simp only [State.stepsLeft, hp]
    omega

/-! ### The stream to come -/

/-- The launch's pixels from scan index `k` on. -/
def State.pixelsFrom (s : State) (k : Nat) : List Pixel := (scanPixels s s.n).drop k

/-- What a scan of the pixels `px` emits, from the present state of the mode's unit on (R73, R77, R79). -/
def State.scanAhead (s : State) (px : List Pixel) : List Byte :=
  if s.lmode = 0#2 then rawPayload px
  else if s.lmode = 1#2 then packBits s.acc s.nbits px
  else rleFrom s.cfg.fixFinalRun (matchIndices px (paletteBytes s.pal)) (if s.curv = true then some s.cur else none)
    s.run.toNat

/-- What `PALOUT` and the scan after it emit. -/
def State.paletteAhead (s : State) : List Byte :=
  (paletteBytes s.pal).drop s.j ++ s.scanAhead (scanPixels s s.n)

/-- What follows from `PSEL` on: the colours from `C` on are offered first. -/
def State.selectionAhead (s : State) : List Byte :=
  { s with pal := offerColours (histGet s.hist) s.pal (allColours.drop s.c), j := 0 }.paletteAhead

/-- What follows from `HIST` on: the pixels from `K` on are counted first. -/
def State.histogramAhead (s : State) : List Byte :=
  { s with hist := countPixels s.hist (s.pixelsFrom s.k), c := 0 }.selectionAhead

/-- What follows the header. -/
def State.payloadAhead (s : State) : List Byte :=
  if s.lmode = 2#2 then { s with k := 0 }.histogramAhead else s.scanAhead (scanPixels s s.n)

/-- The bytes still to be emitted, by the sequencer's position. -/
def State.bytesAhead (s : State) : List Byte :=
  match s.phase with
  | .idle => []
  | .done => []
  | .hdr0 => headerByte s.lw :: headerByte s.lh :: s.payloadAhead
  | .hdr1 => headerByte s.lh :: s.payloadAhead
  | .hist => s.histogramAhead
  | .psel => s.selectionAhead
  | .palout => s.paletteAhead
  | .scan => s.scanAhead (s.pixelsFrom s.k)

/-- The stream the state leads to: what `OUT` holds and what is still to come. -/
def State.forecast (s : State) : List Byte := s.out ++ s.bytesAhead

theorem pixelsFrom_of_lt {s : State} {k : Nat} (hk : k < s.n) :
    s.pixelsFrom k = imgWord s k :: s.pixelsFrom (k + 1) := by
  have inside : k < (scanPixels s s.n).length := by simpa [scanPixels] using hk
  have first : (scanPixels s s.n)[k] = imgWord s k := by simp [scanPixels]
  rw [State.pixelsFrom, List.drop_eq_getElem_cons inside, first, State.pixelsFrom]

theorem pixelsFrom_eq_nil {s : State} {k : Nat} (hk : k ≤ s.n) : s.pixelsFrom k = [] ↔ k = s.n := by
  simp only [State.pixelsFrom, scanPixels, List.drop_eq_nil_iff, List.length_map, List.length_range]
  omega

theorem allColours_drop {c : Nat} (hc : c < 256) : allColours.drop c = BitVec.ofNat 8 c :: allColours.drop (c + 1) := by
  have inside : c < allColours.length := by simpa [allColours] using hc
  have first : allColours[c] = BitVec.ofNat 8 c := by simp [allColours]
  rw [List.drop_eq_getElem_cons inside, first]

theorem allColours_drop_all : allColours.drop 256 = [] := by simp [allColours]

theorem paletteBytes_drop {pal : Vector PalSlot 16} {j : Nat} (hj : j < 16) :
    (paletteBytes pal).drop j = pal[j].palc :: (paletteBytes pal).drop (j + 1) := by
  have inside : j < (paletteBytes pal).length := by simpa [paletteBytes] using hj
  have first : (paletteBytes pal)[j] = pal[j].palc := by simp [paletteBytes]
  rw [List.drop_eq_getElem_cons inside, first]

theorem paletteBytes_drop_all (pal : Vector PalSlot 16) : (paletteBytes pal).drop 16 = [] := by simp [paletteBytes]

section
variable {s t : State}

theorem execHistAcc_histogramAhead (h : execHistAcc s = .next t) :
    t.out ++ t.histogramAhead = s.out ++ s.histogramAhead := by
  obtain ⟨hk, -, -, rfl⟩ := execHistAcc_eq_next h
  rw [State.histogramAhead, State.histogramAhead, pixelsFrom_of_lt hk]
  rfl

theorem histogramAhead_of_eq (hk : s.k = s.n) : s.histogramAhead = { s with c := 0 }.selectionAhead := by
  rw [State.histogramAhead, (pixelsFrom_eq_nil hk.le).2 hk]
  rfl

theorem execPselIns_selectionAhead (h : execPselIns s = .next t) :
    t.out ++ t.selectionAhead = s.out ++ s.selectionAhead := by
  obtain ⟨hc, rfl⟩ := execPselIns_eq_next h
  rw [State.selectionAhead, State.selectionAhead, allColours_drop hc]
  rfl

theorem selectionAhead_of_eq (hc : s.c = 256) : s.selectionAhead = { s with j := 0 }.paletteAhead := by
  rw [State.selectionAhead, hc, allColours_drop_all]
  rfl

theorem execPalOut_paletteAhead (h : execPalOut s = .next t) : t.out ++ t.paletteAhead = s.out ++ s.paletteAhead := by
  obtain ⟨hj, -, rfl⟩ := execPalOut_eq_next h
  rw [State.paletteAhead, State.paletteAhead, paletteBytes_drop hj, List.append_assoc]
  rfl

theorem paletteAhead_of_eq (hj : s.j = 16) : s.paletteAhead = s.scanAhead (scanPixels s s.n) := by
  rw [State.paletteAhead, hj, paletteBytes_drop_all]
  rfl

theorem scanAhead_normal (hl : s.lmode = 0#2) (px : List Pixel) : s.scanAhead px = rawPayload px := by
  simp [State.scanAhead, hl]

theorem scanAhead_binary (hl : s.lmode = 1#2) (px : List Pixel) : s.scanAhead px = packBits s.acc s.nbits px := by
  simp [State.scanAhead, hl]

theorem scanAhead_compressed (hl : s.lmode = 2#2) (px : List Pixel) :
    s.scanAhead px = rleFrom s.cfg.fixFinalRun (matchIndices px (paletteBytes s.pal))
      (if s.curv = true then some s.cur else none) s.run.toNat := by
  simp [State.scanAhead, hl]

theorem execRawStep_scanAhead (hl : s.lmode = 0#2) (h : execRawStep s = .next t) :
    t.out ++ t.scanAhead (t.pixelsFrom t.k) = s.out ++ s.scanAhead (s.pixelsFrom s.k) := by
  obtain ⟨hk, -, rfl⟩ := execRawStep_eq_next h
  rw [scanAhead_normal hl, scanAhead_normal (by exact hl), pixelsFrom_of_lt hk, List.append_assoc]
  rfl

theorem execBinStep_scanAhead (hl : s.lmode = 1#2) (h : execBinStep s = .next t) :
    t.out ++ t.scanAhead (t.pixelsFrom t.k) = s.out ++ s.scanAhead (s.pixelsFrom s.k) := by
  obtain ⟨hk, -, -, step⟩ := execBinStep_eq_next h
  rw [scanAhead_binary hl, pixelsFrom_of_lt hk, packBits]
  simp only [pixelsFrom_eq_nil hk]
  rcases step with ⟨flush, rfl⟩ | ⟨notFull, notLast, rfl⟩
  · rw [scanAhead_binary (by exact hl), if_pos flush, List.append_assoc]
    rfl
  · rw [scanAhead_binary (by exact hl), if_neg (not_or.2 ⟨notFull, notLast⟩)]
    rfl

theorem matchIndices_of_lt (pal : List Byte) (hk : s.k < s.n) :
    matchIndices (s.pixelsFrom s.k) pal =
      matchIndex (quantize (imgWord s s.k)) pal :: matchIndices (s.pixelsFrom (s.k + 1)) pal := by
  rw [pixelsFrom_of_lt hk, matchIndices, List.map_cons, matchIndices]

theorem execRleStep_scanAhead (hl : s.lmode = 2#2) (h : execRleStep s = .next t) :
    t.out ++ t.scanAhead (t.pixelsFrom t.k) = s.out ++ s.scanAhead (s.pixelsFrom s.k) := by
  obtain ⟨hk, -, -, step⟩ := execRleStep_eq_next h
  rw [← paletteBytes] at step
  rw [scanAhead_compressed hl, matchIndices_of_lt _ hk]
  have last : matchIndices (s.pixelsFrom (s.k + 1)) (paletteBytes s.pal) = [] ↔ s.k + 1 = s.n := by
    rw [matchIndices, List.map_eq_nil_iff, pixelsFrom_eq_nil hk]
  rcases step with ⟨flush, rfl⟩ | ⟨active, same, below, notLast, rfl⟩
  · rw [scanAhead_compressed (by exact hl)]
    by_cases active : s.curv = true
    · have flush := flush.resolve_left (by simp [active])
      simp only [if_pos active, if_true, rleFrom, last]
      rw [if_pos flush, BitVec.ofNat_toNat, BitVec.setWidth_eq, List.append_assoc]
      rfl
    · simp only [if_neg active, rleFrom, List.append_nil]
      rfl
  · have count : (s.run + 1#4).toNat = s.run.toNat + 1 := by
      rw [BitVec.toNat_add]
      exact Nat.mod_eq_of_lt (Nat.succ_lt_succ below)
    rw [scanAhead_compressed (by exact hl)]
    simp only [if_pos active, rleFrom, last]
    rw [if_neg (not_or.2 ⟨not_not.2 same, not_or.2 ⟨Nat.not_le.2 below, notLast⟩⟩), ← count]
    rfl

/-- After the last pixel, normal and binary mode emit nothing. -/
theorem scanAhead_nil (hl : s.lmode = 0#2 ∨ s.lmode = 1#2) : s.scanAhead [] = [] := by
  rcases hl with hl | hl
  · exact scanAhead_normal hl []
  · exact scanAhead_binary hl []

/-- After the last pixel, the corrected variant emits the pending run (R72). -/
theorem scanAhead_nil_compressed (hl : s.lmode = 2#2) :
    s.scanAhead [] = if s.cfg.fixFinalRun = true ∧ s.curv = true then [runByte s.cur s.run] else [] := by
  rw [scanAhead_compressed hl]
  cases s.curv <;> simp [matchIndices, rleFrom]

theorem forecast_done (hp : s.phase = .done) : s.forecast = s.out := by
  simp [State.forecast, State.bytesAhead, hp]

theorem forecast_hdr0 (hp : s.phase = .hdr0) :
    s.forecast = s.out ++ headerByte s.lw :: headerByte s.lh :: s.payloadAhead := by
  simp [State.forecast, State.bytesAhead, hp]

theorem forecast_hdr1 (hp : s.phase = .hdr1) : s.forecast = s.out ++ headerByte s.lh :: s.payloadAhead := by
  simp [State.forecast, State.bytesAhead, hp]

theorem forecast_hist (hp : s.phase = .hist) : s.forecast = s.out ++ s.histogramAhead := by
  simp [State.forecast, State.bytesAhead, hp]

theorem forecast_psel (hp : s.phase = .psel) : s.forecast = s.out ++ s.selectionAhead := by
  simp [State.forecast, State.bytesAhead, hp]

theorem forecast_palout (hp : s.phase = .palout) : s.forecast = s.out ++ s.paletteAhead := by
  simp [State.forecast, State.bytesAhead, hp]

theorem forecast_scan (hp : s.phase = .scan) : s.forecast = s.out ++ s.scanAhead (s.pixelsFrom s.k) := by
  simp [State.forecast, State.bytesAhead, hp]

/-- No engine step changes the stream the machine is on the way to. -/
theorem engineStep_forecast (h : engineStep s = .next t) : t.forecast = s.forecast := by
  rcases engineStep_cases h with ⟨-, rfl⟩ | ⟨hp, rfl⟩ | ⟨hp, hl, rfl⟩ | ⟨hp, hl, rfl⟩ | ⟨hp, -, op⟩ | ⟨hp, hk, rfl⟩ |
    ⟨hp, -, op⟩ | ⟨hp, hc, rfl⟩ | ⟨hp, -, op⟩ | ⟨hp, hj, rfl⟩ | ⟨hp, -, hl, op⟩ | ⟨hp, -, hl, op⟩ | ⟨hp, -, hl, op⟩ |
    ⟨hp, hk, hl, rfl⟩ | ⟨hp, hk, hl, rfl⟩
  · rfl
  · rw [forecast_hdr0 hp, forecast_hdr1 rfl, List.append_assoc, List.singleton_append]
    rfl
  · rw [forecast_hdr1 hp, forecast_hist rfl, List.append_assoc, List.singleton_append, State.payloadAhead, if_pos hl]
    rfl
  · have notCompressed : s.lmode ≠ 2#2 := by rcases hl with hl | hl <;> simp [hl]
    rw [forecast_hdr1 hp, forecast_scan rfl, List.append_assoc, List.singleton_append, State.payloadAhead,
      if_neg notCompressed]
    rfl
  · have hp' : t.phase = .hist := (exec_unitFrame (i := .histAcc) op (by simp)).phase.trans hp
    rw [forecast_hist hp, forecast_hist hp', execHistAcc_histogramAhead op]
  · rw [forecast_hist hp, forecast_psel rfl, histogramAhead_of_eq hk]
    rfl
  · have hp' : t.phase = .psel := (exec_unitFrame (i := .pselIns) op (by simp)).phase.trans hp
    rw [forecast_psel hp, forecast_psel hp', execPselIns_selectionAhead op]
  · rw [forecast_psel hp, forecast_palout rfl, selectionAhead_of_eq hc]
    rfl
  · have hp' : t.phase = .palout := (exec_unitFrame (i := .palOut) op (by simp)).phase.trans hp
    rw [forecast_palout hp, forecast_palout hp', execPalOut_paletteAhead op]
  · rw [forecast_palout hp, forecast_scan rfl, paletteAhead_of_eq hj]
    rfl
  · have hp' : t.phase = .scan := (exec_unitFrame (i := .rawStep) op (by simp)).phase.trans hp
    rw [forecast_scan hp, forecast_scan hp', execRawStep_scanAhead hl op]
  · have hp' : t.phase = .scan := (exec_unitFrame (i := .binStep) op (by simp)).phase.trans hp
    rw [forecast_scan hp, forecast_scan hp', execBinStep_scanAhead hl op]
  · have hp' : t.phase = .scan := (exec_unitFrame (i := .rleStep) op (by simp)).phase.trans hp
    rw [forecast_scan hp, forecast_scan hp', execRleStep_scanAhead hl op]
  · rw [forecast_scan hp, forecast_done rfl, (pixelsFrom_eq_nil hk.le).2 hk, scanAhead_nil hl, List.append_nil]
  · rw [forecast_scan hp, forecast_done rfl, (pixelsFrom_eq_nil hk.le).2 hk, scanAhead_nil_compressed hl]

end

end Sys2Proof.Machine
end

section
/-! PROOFS. No step of a conversion fails (`Converting`), so it runs until `stepsLeft` is 0 and `OUT` is its forecast (R32,
R111). -/

namespace Sys2Proof.Machine

/-! ### Unit operations whose preconditions hold -/

section
variable {s : State}

theorem execHistAcc_next (hk : s.k < s.n) (fits : s.n ≤ s.cfg.imgWords)
    (room : histGet s.hist (quantize (imgWord s s.k)) + 1 < 2 ^ s.cfg.cntBits) :
    execHistAcc s = .next { s with
      hist := histSet s.hist (quantize (imgWord s s.k)) (histGet s.hist (quantize (imgWord s s.k)) + 1)
      k := s.k + 1 } := by
  simp [execHistAcc, memRead_ok hk (hk.trans_le fits), room]

theorem execPselIns_next (hc : s.c < 256) :
    execPselIns s = .next { s with
      pal := offerColour s.pal (BitVec.ofNat 8 s.c) (histGet s.hist (BitVec.ofNat 8 s.c)), c := s.c + 1 } :=
  if_pos hc

theorem execPalOut_next (hj : s.j < 16) (filled : s.pal[s.j].palv = true) :
    execPalOut s = .next { s with out := s.out ++ [s.pal[s.j].palc], j := s.j + 1 } := by
  simp [execPalOut, hj, filled, emit]

theorem execRawStep_next (hk : s.k < s.n) (fits : s.n ≤ s.cfg.imgWords) :
    execRawStep s = .next { s with out := s.out ++ [quantize (imgWord s s.k)], k := s.k + 1 } := by
  simp [execRawStep, memRead_ok hk (hk.trans_le fits), emit]

theorem execBinStep_answers (hk : s.k < s.n) (fits : s.n ≤ s.cfg.imgWords) (bits : s.nbits < 8) :
    ∃ t, execBinStep s = .next t := by
  rw [execBinStep, memRead_ok hk (hk.trans_le fits), withRead_ok, if_neg (Nat.not_le.2 bits)]
  split <;> exact ⟨_, rfl⟩

theorem execRleStep_answers (hk : s.k < s.n) (fits : s.n ≤ s.cfg.imgWords)
    (filled : ∀ i : Fin 16, s.pal[i].palv = true) : ∃ t, execRleStep s = .next t := by
  rw [execRleStep, memRead_ok hk (hk.trans_le fits), withRead_ok, paletteColours_eq_ok.2 ⟨filled, rfl⟩, withRead_ok,
    runDiffers_eq, withRead_ok, pendingRun_eq, withRead_ok]
  split_ifs <;> exact ⟨_, rfl⟩

theorem execRleEnd_answers (s : State) : ∃ t, execRleEnd s = .next t := by
  rw [execRleEnd, pendingRun_eq, withRead_ok]
  split <;> exact ⟨_, rfl⟩

end

/-! ### No step of a conversion fails -/

/-- What the sequencer finds in each phase of a conversion, so that the operations of the phase cannot fault (R14, R16 to
R19, R21, R66(a)). -/
inductive State.Ready (s : State) : Prop
  | header (hp : s.phase = .hdr0 ∨ s.phase = .hdr1) (mode : s.lmode ≠ 3#2) (bits : s.nbits ≤ 7)
      (clear : s.lmode = 2#2 →
        s.n < 2 ^ s.cfg.cntBits ∧ (∀ q, histGet s.hist q = 0) ∧ ∀ i : Fin 16, s.pal[i].palv = false)
  | counting (hp : s.phase = .hist) (mode : s.lmode = 2#2) (hk : s.k ≤ s.n) (room : s.n < 2 ^ s.cfg.cntBits)
      (counts : ∀ q, histGet s.hist q ≤ s.k) (unfilled : ∀ i : Fin 16, s.pal[i].palv = false)
  | selecting (hp : s.phase = .psel) (mode : s.lmode = 2#2) (hc : s.c ≤ 256)
      (filling : ∀ i : Fin 16, s.pal[i].palv = true ↔ i.val < s.c)
  | writing (hp : s.phase = .palout) (mode : s.lmode = 2#2) (hj : s.j ≤ 16) (filled : ∀ i : Fin 16, s.pal[i].palv = true)
  | scanning (hp : s.phase = .scan) (mode : s.lmode ≠ 3#2) (hk : s.k ≤ s.n) (bits : s.lmode = 1#2 → s.nbits ≤ 7)
      (filled : s.lmode = 2#2 → ∀ i : Fin 16, s.pal[i].palv = true)
  | finished (hp : s.phase = .done)

/-- A machine in the course of a conversion, with nothing but the engine to step it. -/
structure State.Converting (s : State) : Prop where
  alone : s.EngineAlone
  imageFits : s.n ≤ s.cfg.imgWords
  status : s.status = if s.phase = .done then Status.accepted.completed else Status.accepted
  ready : s.Ready

theorem engineStep_of_row {s u : State} {r : SeqRow} (row : seqRow s = .ok (some r)) (op : runOp r.op s = .next u) :
    engineStep s = .next (applyRow r u) := by
  simp only [engineStep, row, op, andThen_next]

/-- A row that stays in its phase is its unit operation. -/
theorem engineStep_of_op {s u : State} {i : Instr} {p : Phase} (row : seqRow s = .ok (some ⟨some i, none, p, false⟩))
    (op : exec i s = .next u) (hp : u.phase = p) : engineStep s = .next u := by
  rw [engineStep_of_row row op, applyRow_stay _ p rfl hp]

theorem mode_cases {l : BitVec 2} (h : l ≠ 3#2) : (l = 0#2 ∨ l = 1#2) ∨ l = 2#2 := by
  revert l
  decide

section
variable {s : State} (conv : s.Converting)
include conv

theorem State.Converting.status_of_running (running : s.phase ≠ .done) : s.status = Status.accepted :=
  conv.status.trans (if_neg running)

theorem State.Converting.header_step (hp : s.phase = .hdr0 ∨ s.phase = .hdr1) (mode : s.lmode ≠ 3#2) (bits : s.nbits ≤ 7)
    (clear : s.lmode = 2#2 →
      s.n < 2 ^ s.cfg.cntBits ∧ (∀ q, histGet s.hist q = 0) ∧ ∀ i : Fin 16, s.pal[i].palv = false) :
    ∃ t, engineStep s = .next t ∧ t.Converting := by
  have running := conv.status_of_running (by rcases hp with hp | hp <;> simp [hp])
  rcases hp with hp | hp
  · have row : seqRow s = .ok (some ⟨some .hdrW, none, .hdr1, false⟩) := by simp [seqRow, hp]
    exact ⟨_, engineStep_of_row row rfl,
      { conv with status := running, ready := .header (.inr rfl) mode bits clear }⟩
  · rcases mode_cases mode with hl | hl
    · have row : seqRow s = .ok (some ⟨some .hdrH, some .k, .scan, false⟩) := by
        rcases hl with hl | hl <;> simp [seqRow, hp, hl, modeOf]
      have notCompressed : s.lmode ≠ 2#2 := by rcases hl with hl | hl <;> simp [hl]
      exact ⟨_, engineStep_of_row row rfl, { conv with
        status := running
        ready := .scanning rfl mode (Nat.zero_le _) (fun _ => bits) (fun hl => absurd hl notCompressed) }⟩
    · have row : seqRow s = .ok (some ⟨some .hdrH, some .k, .hist, false⟩) := by simp [seqRow, hp, hl, modeOf]
      obtain ⟨room, zero, unfilled⟩ := clear hl
      exact ⟨_, engineStep_of_row row rfl, { conv with
        status := running
        ready := .counting rfl hl (Nat.zero_le _) room (fun q => (zero q).le) unfilled }⟩

theorem State.Converting.counting_step (hp : s.phase = .hist) (mode : s.lmode = 2#2) (hk : s.k ≤ s.n)
    (room : s.n < 2 ^ s.cfg.cntBits) (counts : ∀ q, histGet s.hist q ≤ s.k)
    (unfilled : ∀ i : Fin 16, s.pal[i].palv = false) : ∃ t, engineStep s = .next t ∧ t.Converting := by
  rcases hk.lt_or_eq with hk | hk
  · have row : seqRow s = .ok (some ⟨some .histAcc, none, .hist, false⟩) := by simp [seqRow, hp, hk]
    have op := execHistAcc_next hk conv.imageFits ((Nat.succ_le_of_lt ((counts _).trans_lt hk)).trans_lt room)
    exact ⟨_, engineStep_of_op row op hp, { conv with
      ready := .counting hp mode hk room (histGet_histSet_succ_le counts _) unfilled }⟩
  · have row : seqRow s = .ok (some ⟨none, some .c, .psel, false⟩) := by simp [seqRow, hp, hk]
    exact ⟨_, engineStep_of_row row rfl, { conv with
      status := conv.status_of_running (by simp [hp])
      ready := .selecting rfl mode (Nat.zero_le _) fun i =>
        iff_of_false (ne_true_of_eq_false (unfilled i)) (Nat.not_lt_zero _) }⟩

theorem State.Converting.selecting_step (hp : s.phase = .psel) (mode : s.lmode = 2#2) (hc : s.c ≤ 256)
    (filling : ∀ i : Fin 16, s.pal[i].palv = true ↔ i.val < s.c) : ∃ t, engineStep s = .next t ∧ t.Converting := by
  rcases hc.lt_or_eq with hc | hc
  · have row : seqRow s = .ok (some ⟨some .pselIns, none, .psel, false⟩) := by simp [seqRow, hp, hc]
    exact ⟨_, engineStep_of_op row (execPselIns_next hc) hp, { conv with
      ready := .selecting hp mode hc (offerColour_filled filling) }⟩
  · have row : seqRow s = .ok (some ⟨none, some .j, .palout, false⟩) := by simp [seqRow, hp, hc]
    exact ⟨_, engineStep_of_row row rfl, { conv with
      status := conv.status_of_running (by simp [hp])
      ready := .writing rfl mode (Nat.zero_le _) fun i => (filling i).2 (by omega) }⟩

theorem State.Converting.writing_step (hp : s.phase = .palout) (mode : s.lmode = 2#2) (hj : s.j ≤ 16)
    (filled : ∀ i : Fin 16, s.pal[i].palv = true) : ∃ t, engineStep s = .next t ∧ t.Converting := by
  rcases hj.lt_or_eq with hj | hj
  · have row : seqRow s = .ok (some ⟨some .palOut, none, .palout, false⟩) := by simp [seqRow, hp, hj]
    exact ⟨_, engineStep_of_op row (execPalOut_next hj (filled ⟨s.j, hj⟩)) hp, { conv with
      ready := .writing hp mode hj filled }⟩
  · have row : seqRow s = .ok (some ⟨none, some .k, .scan, false⟩) := by simp [seqRow, hp, hj]
    exact ⟨_, engineStep_of_row row rfl, { conv with
      status := conv.status_of_running (by simp [hp])
      ready := .scanning rfl (by simp [mode]) (Nat.zero_le _) (by simp [mode]) fun _ => filled }⟩

theorem State.Converting.scanning_step (hp : s.phase = .scan) (mode : s.lmode ≠ 3#2) (hk : s.k ≤ s.n)
    (bits : s.lmode = 1#2 → s.nbits ≤ 7) (filled : s.lmode = 2#2 → ∀ i : Fin 16, s.pal[i].palv = true) :
    ∃ t, engineStep s = .next t ∧ t.Converting := by
  have completed := congrArg Status.completed (conv.status_of_running (by simp [hp]))
  rcases hk.lt_or_eq with hk | hk
  · rcases mode_cases mode with (hl | hl) | hl
    · have row : seqRow s = .ok (some ⟨some .rawStep, none, .scan, false⟩) := by
        simp [seqRow, hp, hk, hl, modeOf, scanOp]
      exact ⟨_, engineStep_of_op row (execRawStep_next hk conv.imageFits) hp, { conv with
        ready := .scanning hp mode hk bits filled }⟩
    · have row : seqRow s = .ok (some ⟨some .binStep, none, .scan, false⟩) := by
        simp [seqRow, hp, hk, hl, modeOf, scanOp]
      obtain ⟨t, op⟩ := execBinStep_answers hk conv.imageFits (Nat.lt_succ_of_le (bits hl))
      have frame : UnitFrame s t := exec_unitFrame (i := .binStep) op (by simp)
      refine ⟨t, engineStep_of_op row op (frame.phase.trans hp), ?_⟩
      have below := bits hl
      obtain ⟨-, -, -, ⟨-, rfl⟩ | ⟨notFull, -, rfl⟩⟩ := execBinStep_eq_next op
      · exact { conv with ready := .scanning hp mode hk (fun _ => Nat.zero_le 7) filled }
      · exact { conv with ready := .scanning hp mode hk (fun _ => (by omega : s.nbits + 1 ≤ 7)) filled }
    · have row : seqRow s = .ok (some ⟨some .rleStep, none, .scan, false⟩) := by
        simp [seqRow, hp, hk, hl, modeOf, scanOp]
      obtain ⟨t, op⟩ := execRleStep_answers hk conv.imageFits (filled hl)
      have frame : UnitFrame s t := exec_unitFrame (i := .rleStep) op (by simp)
      refine ⟨t, engineStep_of_op row op (frame.phase.trans hp), ?_⟩
      obtain ⟨-, -, -, ⟨-, rfl⟩ | ⟨-, -, -, -, rfl⟩⟩ := execRleStep_eq_next op <;>
        exact { conv with ready := .scanning hp mode hk bits filled }
  · rcases mode_cases mode with hl | hl
    · have row : seqRow s = .ok (some ⟨none, none, .done, true⟩) := by
        rcases hl with hl | hl <;> simp [seqRow, hp, hk, hl, modeOf]
      exact ⟨_, engineStep_of_row row rfl, { conv with status := completed, ready := .finished rfl }⟩
    · have row : seqRow s = .ok (some ⟨some .rleEnd, none, .done, true⟩) := by simp [seqRow, hp, hk, hl, modeOf]
      obtain ⟨t, op⟩ := execRleEnd_answers s
      refine ⟨_, engineStep_of_row row op, ?_⟩
      obtain rfl := execRleEnd_eq_next op
      exact { conv with status := completed, ready := .finished rfl }

/-- Until it has finished, a conversion takes a next step (R91, R102). -/
theorem State.Converting.step (running : s.phase ≠ .done) : ∃ t, engineStep s = .next t ∧ t.Converting := by
  cases conv.ready with
  | header hp mode bits clear => exact conv.header_step hp mode bits clear
  | counting hp mode hk room counts unfilled => exact conv.counting_step hp mode hk room counts unfilled
  | selecting hp mode hc filling => exact conv.selecting_step hp mode hc filling
  | writing hp mode hj filled => exact conv.writing_step hp mode hj filled
  | scanning hp mode hk bits filled => exact conv.scanning_step hp mode hk bits filled
  | finished hp => exact absurd hp running

theorem State.Converting.running_iff : s.phase.running = true ↔ s.phase ≠ .done := by
  cases conv.ready with
  | header hp => rcases hp with hp | hp <;> simp [hp, Phase.running]
  | counting hp | selecting hp | writing hp | scanning hp | finished hp => simp [hp, Phase.running]

theorem State.Converting.stepsLeft_eq_zero_iff : s.stepsLeft = 0 ↔ s.phase = .done := by
  cases conv.ready with
  | header hp => rcases hp with hp | hp <;> simp only [State.stepsLeft, hp] <;> split <;> simp
  | counting hp | selecting hp | writing hp | scanning hp | finished hp => simp [hp, State.stepsLeft]

/-- The first `k` steps of a conversion, as long as it has that many left. -/
theorem State.Converting.run {k : Nat} (hk : k ≤ s.stepsLeft) :
    ∃ u, runSteps k s = .next u ∧ u.Converting ∧ u.stepsLeft + k = s.stepsLeft ∧ u.forecast = s.forecast := by
  induction k generalizing s with
  | zero => exact ⟨s, rfl, conv, rfl, rfl⟩
  | succ k ih =>
    have running : s.phase ≠ .done := mt conv.stepsLeft_eq_zero_iff.2 (Nat.ne_of_gt (Nat.zero_lt_of_lt hk))
    obtain ⟨t, step_t, conv_t⟩ := conv.step running
    have count := engineStep_stepsLeft (conv.running_iff.2 running) step_t
    obtain ⟨u, run_u, conv_u, count_u, forecast_u⟩ := ih conv_t (by omega)
    refine ⟨u, ?_, conv_u, by omega, forecast_u.trans (engineStep_forecast step_t)⟩
    rw [runSteps, step_engine conv.alone.1 conv.alone.2, step_t, andThen_next, run_u]

end

/-! ### The launch -/

section
variable {s : State}

theorem modeBits_ne_three (m : Mode) : (wordOf m).extractLsb' 0 2 ≠ 3#2 := by
  cases m <;> decide

theorem modeBits_eq_two {m : Mode} (h : (wordOf m).extractLsb' 0 2 = 2#2) : m = .compressed := by
  revert h
  cases m <;> decide

/-- An accepted command starts a conversion. Only compressed mode counts pixels, so only there a counter must hold `N`. -/
theorem acceptStart_converting {m : Mode} (alone : s.EngineAlone) (accepts : s.Accepts)
    (room : m = .compressed → s.width.toNat * s.height.toNat < 2 ^ s.cfg.cntBits) :
    (acceptStart ((wordOf m).extractLsb' 0 2) s).Converting where
  alone := alone
  imageFits := accepts.imageFits
  status := rfl
  ready := .header (.inl rfl) (modeBits_ne_three m) (Nat.zero_le _) fun compressed =>
    ⟨room (modeBits_eq_two compressed), histGet_clear, by simp⟩

theorem acceptStart_stepsLeft (m : Mode) (s : State) :
    (acceptStart ((wordOf m).extractLsb' 0 2) s).stepsLeft = conversionSteps m (s.width.toNat * s.height.toNat) := by
  cases m <;> rfl

theorem headerByte_eq (d : Dim) : headerByte d = BitVec.ofNat 8 (d.toNat % 256) := by
  refine BitVec.eq_of_toNat_eq ?_
  simp [headerByte]

theorem payloadAhead_uncompressed (hl : s.lmode ≠ 2#2) : s.payloadAhead = s.scanAhead (scanPixels s s.n) := if_neg hl

/-- From cleared units, compressed mode is on the way to the payload of R89. -/
theorem payloadAhead_compressed (hl : s.lmode = 2#2) (zero : s.hist = Vector.replicate 256 0)
    (unfilled : ∀ i : Fin 16, s.pal[i].palv = false) (noRun : s.curv = false) (full : s.run = 15#4) :
    s.payloadAhead = selectPalette (buildHistogram (scanPixels s s.n)) ++
      rle (matchIndices (scanPixels s s.n) (selectPalette (buildHistogram (scanPixels s s.n)))) s.cfg.fixFinalRun := by
  have counted : histGet (countPixels s.hist (s.pixelsFrom 0)) = buildHistogram (scanPixels s s.n) := by
    rw [zero, histGet_countPixels_clear, State.pixelsFrom, List.drop_zero]
  have selected : paletteBytes (offerColours (histGet (countPixels s.hist (s.pixelsFrom 0))) s.pal (allColours.drop 0)) =
      selectPalette (buildHistogram (scanPixels s s.n)) := by
    rw [counted, List.drop_zero, paletteBytes_offerColours _ unfilled]
  rw [← selected, State.payloadAhead, if_pos hl, State.histogramAhead, State.selectionAhead, State.paletteAhead,
    scanAhead_compressed (by exact hl), rle]
  simp only [noRun, full]
  rfl

/-- The stream an accepted command is on the way to is the stream of R89. -/
theorem acceptStart_forecast (m : Mode) (s : State) :
    (acceptStart ((wordOf m).extractLsb' 0 2) s).forecast = launchStream s m := by
  have header (px : List Byte) : [] ++ headerByte s.width :: headerByte s.height :: px =
      [BitVec.ofNat 8 (s.width.toNat % 256), BitVec.ofNat 8 (s.height.toNat % 256)] ++ px := by
    rw [headerByte_eq, headerByte_eq]
    rfl
  refine (forecast_hdr0 rfl).trans ((header _).trans (congrArg _ ?_))
  cases m with
  | normal => exact (payloadAhead_uncompressed (mt modeBits_eq_two nofun)).trans (scanAhead_normal rfl _)
  | binary =>
    exact (payloadAhead_uncompressed (mt modeBits_eq_two nofun)).trans
      ((scanAhead_binary rfl _).trans (packBits_eq_binaryPayload _))
  | compressed => exact payloadAhead_compressed rfl rfl (by simp) rfl rfl

end

theorem State.DimsFit.room {s : State} (fit : s.DimsFit) : s.width.toNat * s.height.toNat < 2 ^ s.cfg.cntBits := by
  have build := fit.buildOk
  simp only [Config.wf, Bool.and_eq_true, decide_eq_true_eq] at build
  calc s.width.toNat * s.height.toNat
      < 2 ^ s.cfg.dimBits * 2 ^ s.cfg.dimBits := Nat.mul_lt_mul'' fit.width fit.height
    _ = 2 ^ (2 * s.cfg.dimBits) := by rw [← Nat.pow_add, Nat.two_mul]
    _ ≤ 2 ^ s.cfg.cntBits := Nat.pow_le_pow_right Nat.two_pos build.1.2

/-- Settles O53: a conversion counts its steps down to `DONE` and keeps its forecast, which `OUT` always begins. -/
theorem conversionRunsUntilItsLastStep : Obligations.ConversionRunsUntilItsLastStep := by
  intro m s s1 alone accepts fit hs1
  obtain rfl := Host.Outcome.next.inj ((exec_commandOf_accepts m accepts).symm.trans hs1)
  have conv := acceptStart_converting (m := m) alone accepts fun _ => fit.room
  rw [← acceptStart_stepsLeft m s]
  constructor
  · obtain ⟨t, run, conv_t, count, -⟩ := conv.run le_rfl
    exact ⟨t, run, conv_t.stepsLeft_eq_zero_iff.1 (by omega)⟩
  · intro k hk
    obtain ⟨u, run, conv_u, count, forecast⟩ := conv.run hk.le
    have running : u.phase ≠ .done := mt conv_u.stepsLeft_eq_zero_iff.2 (by omega)
    refine ⟨u, run, by rw [conv_u.status_of_running running]; rfl, running, ?_⟩
    rw [← acceptStart_forecast m s, ← forecast]
    exact List.prefix_append _ _

end Sys2Proof.Machine
end

section
/-! PROOFS. The encoding of instructions (R42 to R44, R53, R54): the encoder and the decoder undo each other between the
instructions and the well-formed code words, and a reserved command word is rejected. Then what the one step of the machine
is: the next move, and an engine step while the host waits (R52). -/

namespace Sys2Proof.Machine

/-! ### The decoder and the encoder -/

theorem encode_wf (i : Instr) : (encode i).wf = true := by
  cases i <;> rfl

theorem decode_encode (i : Instr) : decode (encode i) = .ok i := by
  cases i <;> rfl

theorem encode_decodeUop (u : BitVec 4) : encode (decodeUop u) = .uop4 u := by
  revert u
  decide

/-- The two fields of a command word (R42 to R44). -/
theorem cmd8_wf_iff (c : Byte) :
    (CodeWord.cmd8 c).wf = true ↔ c.extractLsb' 2 6 = 0#6 ∧ c.extractLsb' 0 2 ≠ 3#2 := by
  simp [CodeWord.wf]

theorem decodeCmd_of_wf {c : Byte} (ok : (CodeWord.cmd8 c).wf = true) : ∃ i, decodeCmd c = .ok i := by
  obtain ⟨zero, mode⟩ := (cmd8_wf_iff c).1 ok
  rcases mode_cases mode with (m | m) | m
  · exact ⟨.encNormal, by simp [decodeCmd, zero, m]⟩
  · exact ⟨.encBinary, by simp [decodeCmd, zero, m]⟩
  · exact ⟨.encCompressed, by simp [decodeCmd, zero, m]⟩

theorem decodeCmd_of_not_wf {c : Byte} (reserved : (CodeWord.cmd8 c).wf = false) :
    decodeCmd c = .error (.reservedCommand c) := by
  by_cases zero : c.extractLsb' 2 6 = 0#6
  · have mode : c.extractLsb' 0 2 = 3#2 := by
      by_contra legal
      exact Bool.false_ne_true (reserved.symm.trans ((cmd8_wf_iff c).2 ⟨zero, legal⟩))
    simp [decodeCmd, zero, mode]
  · simp [decodeCmd, zero]

/-- Only the three host commands have command words (R43). -/
theorem word_of_encode_eq_cmd8 {i : Instr} {c : Byte} (h : encode i = .cmd8 c) :
    c = 0x00#8 ∨ c = 0x01#8 ∨ c = 0x02#8 := by
  cases i <;> cases h
  case encNormal => exact .inl rfl
  case encBinary => exact .inr (.inl rfl)
  case encCompressed => exact .inr (.inr rfl)

/-- Settles O1: a well-formed word would be the word of one of the three commands. -/
theorem commandWordsDecodeOrAreReserved : Obligations.CommandWordsDecodeOrAreReserved := by
  refine ⟨decode_encode .encNormal, decode_encode .encBinary, decode_encode .encCompressed, ?_⟩
  intro c notNormal notBinary notCompressed
  cases ok : (CodeWord.cmd8 c).wf with
  | false => exact decodeCmd_of_not_wf ok
  | true =>
    obtain ⟨i, hi⟩ := decodeCmd_of_wf ok
    rcases word_of_encode_eq_cmd8 (decodeCmd_eq_ok hi) with h | h | h
    · exact absurd h notNormal
    · exact absurd h notBinary
    · exact absurd h notCompressed

/-- Settles O2: by the format of the code word; a unit operation's label is never ill-formed. -/
theorem decodeAndEncodeAgree : Obligations.DecodeAndEncodeAgree := by
  refine ⟨fun i _ => ⟨encode_wf i, decode_encode i⟩, fun w => ?_⟩
  cases w with
  | cmd8 c =>
    refine ⟨fun ok => ?_, fun reserved => ⟨_, decodeCmd_of_not_wf reserved⟩⟩
    obtain ⟨i, hi⟩ := decodeCmd_of_wf ok
    exact ⟨i, hi, decodeCmd_eq_ok hi⟩
  | uop4 u => exact ⟨fun _ => ⟨decodeUop u, rfl, encode_decodeUop u⟩, nofun⟩

/-- Settles O3: ten of the words are the encodings of their instructions, the last one is reserved. -/
theorem wordsOfTheTablesDecode : Obligations.WordsOfTheTablesDecode :=
  ⟨decode_encode .encNormal, decode_encode .encCompressed, decode_encode .quant, decode_encode .histAcc,
    decode_encode .pselIns, decode_encode .matchIdx, decode_encode .rleStep, decode_encode .binStep,
    decode_encode .rawStep, decode_encode .palOut, decodeCmd_of_not_wf (by decide)⟩

/-! ### The next move and `WAIT` -/

theorem hostWait_of_ended {s : State} (ended : s.status.done = true ∨ s.status.err = true) : hostWait s = .next s :=
  if_pos ended

theorem hostWait_of_running {s : State} (notDone : s.status.done = false) (noError : s.status.err = false) :
    hostWait s = engineStep { s with inbox := .wait :: s.inbox } :=
  if_neg (by simp [notDone, noError])

/-- Settles O5: one clause for each place a step takes its move from. -/
theorem stepMakesTheNextMove : Obligations.StepMakesTheNextMove :=
  fun _ => ⟨fun _ => step_bench, fun _ _ => step_host, step_engine⟩

/-- Settles O42: while the host waits, `WAIT` goes back on the queue it was taken from, so the engine steps from the same
state. -/
theorem waitLetsTheEngineRun : Obligations.WaitLetsTheEngineRun := by
  intro s rest bench inbox
  rw [step_host bench inbox]
  constructor
  · intro ended
    exact hostWait_of_ended ended
  · intro notDone noError
    have requeued : { s with inbox := .wait :: rest } = s := by rw [← inbox]
    exact (hostWait_of_running (by exact notDone) (by exact noError)).trans (congrArg engineStep requeued)

end Sys2Proof.Machine
end

section
/-! PROOFS. The Quantizer (R55 to R57). The formula of R55 is the packing of the top bits of the channels, red high
(`quantizeRGB_eq_append`); the claims follow from that form and from its value as a number (`quantizeRGB_toNat`). -/

namespace Sys2Proof.Machine

/-! ### Fields of bit vectors -/

theorem append_eq_append_iff {v w : Nat} {a a' : BitVec v} {b b' : BitVec w} :
    a ++ b = a' ++ b' ↔ a = a' ∧ b = b' := by
  constructor
  · intro same
    have high := congrArg (BitVec.extractLsb' w v) same
    have low := congrArg (BitVec.extractLsb' 0 w) same
    simp only [BitVec.extractLsb'_append_eq_left, BitVec.extractLsb'_append_eq_right] at high low
    exact ⟨high, low⟩
  · rintro ⟨rfl, rfl⟩
    rfl

theorem extractLsb'_extractLsb' {w len len' start' : Nat} (start : Nat) (x : BitVec w)
    (inside : start' + len' ≤ len) :
    (x.extractLsb' start len).extractLsb' start' len' = x.extractLsb' (start + start') len' := by
  ext i hi
  have low : start' + i < len := by omega
  simp [low, Nat.add_assoc]

theorem setWidth_topBits (x : Byte) (n : Nat) : (x.extractLsb' n (8 - n)).setWidth 8 = x >>> n := by
  ext i hi
  have inside : x.getLsbD (n + i) = true → i < 8 - n := fun isSet => by
    have := BitVec.lt_of_getLsbD isSet
    omega
  simpa using inside

/-- The fields of R46, red high, make the QuantizedColor. -/
theorem append_fields (q : Byte) : q.extractLsb' 5 3 ++ q.extractLsb' 2 3 ++ q.extractLsb' 0 2 = q := by
  rw [BitVec.extractLsb'_append_extractLsb'_eq_extractLsb' (by rfl),
    BitVec.extractLsb'_append_extractLsb'_eq_extractLsb' (by rfl)]
  exact BitVec.extractLsb'_eq_self

theorem qRed_eq_div (q : Byte) : qRed q = q.toNat / 2 ^ 5 := Nat.shiftRight_eq_div_pow ..

theorem qGreen_eq_mod (q : Byte) : qGreen q = q.toNat / 2 ^ 2 % 2 ^ 3 := by
  rw [qGreen, BitVec.toNat_and, BitVec.toNat_ushiftRight, Nat.shiftRight_eq_div_pow]
  exact Nat.and_two_pow_sub_one_eq_mod _ 3

theorem qBlue_eq_mod (q : Byte) : qBlue q = q.toNat % 2 ^ 2 := Nat.and_two_pow_sub_one_eq_mod _ 2

theorem bit7_eq_decide (x : Byte) : x.getLsbD 7 = decide (127 < x.toNat) :=
  x.msb_eq_getLsbD_last.symm.trans x.msb_eq_decide

/-! ### Channels of a pixel -/

section
variable (r g b : Byte)

@[simp] theorem pixR_append : pixR (r ++ g ++ b) = r := by
  rw [pixR, BitVec.extractLsb'_append_eq_of_le (by decide)]
  exact BitVec.extractLsb'_append_eq_left

@[simp] theorem pixG_append : pixG (r ++ g ++ b) = g := by
  rw [pixG, BitVec.extractLsb'_append_eq_of_le (by decide)]
  exact BitVec.extractLsb'_append_eq_right

@[simp] theorem pixB_append : pixB (r ++ g ++ b) = b := BitVec.extractLsb'_append_eq_right

end

/-! ### The two forms of `quantize` -/

theorem quantizeRGB_eq_append (r g b : Byte) :
    quantizeRGB r g b = r.extractLsb' 5 3 ++ g.extractLsb' 5 3 ++ b.extractLsb' 6 2 := by
  have packed := BitVec.setWidth_append_append_eq_shiftLeft_setWidth_or (w''' := 8)
    (b := r.extractLsb' 5 3) (b' := g.extractLsb' 5 3) (b'' := b.extractLsb' 6 2)
  rw [BitVec.setWidth_eq, setWidth_topBits r 5, setWidth_topBits g 5, setWidth_topBits b 6] at packed
  exact packed.symm

theorem quantizeRGB_toNat (r g b : Byte) :
    (quantizeRGB r g b).toNat = r.toNat / 2 ^ 5 * 2 ^ 5 + g.toNat / 2 ^ 5 * 2 ^ 2 + b.toNat / 2 ^ 6 := by
  rw [quantizeRGB_eq_append, BitVec.toNat_append, BitVec.toNat_append,
    ← Nat.shiftLeft_add_eq_or_of_lt (BitVec.isLt _), ← Nat.shiftLeft_add_eq_or_of_lt (BitVec.isLt _)]
  simp only [BitVec.extractLsb'_toNat, Nat.shiftRight_eq_div_pow, Nat.shiftLeft_eq]
  omega

theorem quantize_eq_append (p : Pixel) :
    quantize p = p.extractLsb' 21 3 ++ p.extractLsb' 13 3 ++ p.extractLsb' 6 2 := by
  rw [quantize, quantizeRGB_eq_append, pixR, pixG, pixB, extractLsb'_extractLsb' 16 p (by decide),
    extractLsb'_extractLsb' 8 p (by decide), extractLsb'_extractLsb' 0 p (by decide)]

/-- Settles O7: the state is `execQuant`'s, with the colour in its packed form. -/
theorem quantPacksTheTopBits : Obligations.QuantPacksTheTopBits := by
  refine ⟨rfl, fun s => ?_⟩
  rw [← quantize_eq_append]
  rfl

/-! ### Requantizing -/

theorem quantizeRGB_of_fields (q : Byte) (x y : BitVec 5) (z : BitVec 6) :
    quantizeRGB (q.extractLsb' 5 3 ++ x) (q.extractLsb' 2 3 ++ y) (q.extractLsb' 0 2 ++ z) = q := by
  rw [quantizeRGB_eq_append, BitVec.extractLsb'_append_eq_left, BitVec.extractLsb'_append_eq_left,
    BitVec.extractLsb'_append_eq_left, append_fields]

/-- The masks of R56 leave each field at the top of its channel, over zeros. -/
theorem expandColour_eq_append (q : Byte) :
    expandColour q =
      (q.extractLsb' 5 3 ++ 0#5 : Byte) ++ (q.extractLsb' 2 3 ++ 0#5 : Byte) ++ (q.extractLsb' 0 2 ++ 0#6 : Byte) := by
  revert q
  decide

theorem quantize_expandColour (q : Byte) : quantize (expandColour q) = q := by
  rw [expandColour_eq_append, quantize, pixR_append, pixG_append, pixB_append]
  exact quantizeRGB_of_fields q _ _ _

/-- Settles O8: the low bits do not matter, and `expandColour` is the fill with zeros. -/
theorem requantizingGivesTheColourBack : Obligations.RequantizingGivesTheColourBack :=
  ⟨quantize_expandColour, fun p => quantize_expandColour (quantize p), quantizeRGB_of_fields⟩

/-! ### Facts about the colour -/

theorem quantizeRGB_bit7 (r g b : Byte) : (quantizeRGB r g b).getLsbD 7 = r.getLsbD 7 := by
  rw [bit7_eq_decide, bit7_eq_decide, quantizeRGB_toNat, decide_eq_decide]
  omega

theorem thresholdBit_eq_bit7 (p : Pixel) : thresholdBit p = (quantize p).getLsbD 7 := by
  rw [quantize, quantizeRGB_bit7, bit7_eq_decide, thresholdBit]

theorem quantizeRGB_mono {r r' g g' b b' : Byte} (red : r.toNat ≤ r'.toNat) (green : g.toNat ≤ g'.toNat)
    (blue : b.toNat ≤ b'.toNat) : (quantizeRGB r g b).toNat ≤ (quantizeRGB r' g' b').toNat := by
  rw [quantizeRGB_toNat, quantizeRGB_toNat]
  gcongr

theorem quantizeRGB_eq_iff (r g b r' g' b' : Byte) :
    quantizeRGB r g b = quantizeRGB r' g' b' ↔
      r.extractLsb' 5 3 = r'.extractLsb' 5 3 ∧ g.extractLsb' 5 3 = g'.extractLsb' 5 3 ∧
      b.extractLsb' 6 2 = b'.extractLsb' 6 2 := by
  rw [quantizeRGB_eq_append, quantizeRGB_eq_append, append_eq_append_iff, append_eq_append_iff, and_assoc]

theorem quantizeRGB_fields (r g b : Byte) :
    qRed (quantizeRGB r g b) = r.toNat / 2 ^ 5 ∧ qGreen (quantizeRGB r g b) = g.toNat / 2 ^ 5 ∧
      qBlue (quantizeRGB r g b) = b.toNat / 2 ^ 6 := by
  rw [qRed_eq_div, qGreen_eq_mod, qBlue_eq_mod, quantizeRGB_toNat]
  omega

/-- Settles O9: one lemma for each of R57 (a) to (d). -/
theorem quantizedFieldsAreTruncatedChannels : Obligations.QuantizedFieldsAreTruncatedChannels :=
  ⟨fun r g b => ⟨quantizeRGB_bit7 r g b, bit7_eq_decide r⟩, thresholdBit_eq_bit7,
    fun _ _ _ _ _ _ red green blue =>
      ⟨quantizeRGB_mono red le_rfl le_rfl, quantizeRGB_mono le_rfl green le_rfl,
        quantizeRGB_mono le_rfl le_rfl blue⟩,
    quantizeRGB_eq_iff, quantizeRGB_fields⟩

end Sys2Proof.Machine
end

section
/-! PROOFS. The Histogram Builder (R58 to R61). `HIST.ACC` counts the pixel it reads (`exec_histAcc_counts`), so a pass
over the scan is `countPixels` (`repeatExec_histAcc`). A counter of `buildHistogram` is the number of times its colour
stands among the quantized pixels (`buildHistogram_eq_count`); the facts of R61 follow from that form. -/

namespace Sys2Proof.Machine

/-! ### The histogram pass -/

/-- Counting raises no counter above its value and the number of pixels counted. -/
theorem histGet_countPixels_le (h : Vector Nat 256) (px : List Pixel) (q : Byte) :
    histGet (countPixels h px) q ≤ histGet h q + px.length := by
  rw [histGet_countPixels]
  exact Nat.add_le_add_left List.countP_le_length _

/-- `HIST.ACC` counts the one pixel it reads. -/
theorem exec_histAcc_counts {s : State} (hk : s.k < s.n) (inMemory : s.k < s.cfg.imgWords)
    (room : histGet s.hist (quantize (imgWord s s.k)) + 1 < 2 ^ s.cfg.cntBits) :
    exec .histAcc s = .next { s with hist := countPixels s.hist [imgWord s s.k], k := s.k + 1 } := by
  change execHistAcc s = _
  rw [execHistAcc, memRead_ok hk inMemory, withRead_ok, if_pos room]
  rfl

/-- The rest of a histogram pass counts the rest of the pixels, if no counter can reach its limit on the way. -/
theorem repeatExec_histAcc {steps : Nat} {s : State} (rest : s.k + steps = s.n) (fits : s.n ≤ s.cfg.imgWords)
    (room : ∀ q, histGet s.hist q + steps < 2 ^ s.cfg.cntBits) :
    repeatExec .histAcc steps s = .next { s with hist := countPixels s.hist (s.pixelsFrom s.k), k := s.k + steps } := by
  induction steps generalizing s with
  | zero =>
    have atEnd : s.k = s.n := rest
    rw [(pixelsFrom_eq_nil atEnd.le).2 atEnd]
    rfl
  | succ steps ih =>
    have hk : s.k < s.n := by omega
    have here : histGet s.hist (quantize (imgWord s s.k)) + 1 < 2 ^ s.cfg.cntBits :=
      (Nat.add_le_add_left (Nat.le_add_left 1 steps) _).trans_lt (room _)
    have ahead (q : Byte) : histGet (countPixels s.hist [imgWord s s.k]) q + steps < 2 ^ s.cfg.cntBits := by
      have counted : histGet (countPixels s.hist [imgWord s s.k]) q ≤ histGet s.hist q + 1 :=
        histGet_countPixels_le s.hist [imgWord s s.k] q
      have limit := room q
      omega
    have pass := ih (s := { s with hist := countPixels s.hist [imgWord s s.k], k := s.k + 1 })
      ((Nat.add_right_comm s.k 1 steps).trans rest) fits ahead
    rw [repeatExec, exec_histAcc_counts hk (hk.trans_le fits) here, andThen_next, pass, pixelsFrom_of_lt hk,
      Nat.add_right_comm]
    rfl

/-- Settles O12: a pass from the first pixel counts all of them. -/
theorem histogramPassBuildsTheHistogram : Obligations.HistogramPassBuildsTheHistogram := by
  intro s start zero fits room
  refine ⟨countPixels s.hist (scanPixels s s.n), ?_, fun q => ?_⟩
  · have pass := repeatExec_histAcc (s := s) (steps := s.n) (by omega) fits fun q => by simpa [zero q] using room
    rwa [State.pixelsFrom, start, List.drop_zero, Nat.zero_add] at pass
  · rw [histGet_countPixels, zero, Nat.zero_add]

/-! ### The closed histogram -/

theorem mem_allColours (c : Byte) : c ∈ allColours :=
  List.mem_map.2 ⟨c.toNat, List.mem_range.2 c.isLt, by simp⟩

theorem allColours_length : allColours.length = 256 := by
  rw [allColours, List.length_map, List.length_range]

theorem buildHistogram_eq_count (px : List Pixel) (c : Byte) : buildHistogram px c = (px.map quantize).count c := by
  rw [List.count, List.countP_map]
  rfl

theorem buildHistogram_pos_iff (px : List Pixel) (c : Byte) : 0 < buildHistogram px c ↔ c ∈ px.map quantize := by
  rw [buildHistogram_eq_count, List.count_pos_iff]

theorem sum_buildHistogram (px : List Pixel) : (allColours.map (buildHistogram px)).sum = px.length := by
  have allCounted := Multiset.sum_count_eq_card (s := allColours.toFinset) (m := (px.map quantize : List Byte))
    fun c _ => List.mem_toFinset.2 (mem_allColours c)
  simp only [List.sum_toFinset _ allColours_nodup, Multiset.coe_card, List.length_map, Multiset.coe_count] at allCounted
  rw [funext (buildHistogram_eq_count px)]
  exact allCounted

/-- The colours with a positive counter are the distinct colours that occur. -/
theorem countP_buildHistogram_pos (px : List Pixel) :
    (allColours.countP fun c => decide (0 < buildHistogram px c)) = (px.map quantize).dedup.length := by
  rw [List.countP_eq_length_filter]
  refine List.Perm.length_eq ((List.perm_ext_iff_of_nodup (allColours_nodup.filter _) (List.nodup_dedup _)).2 fun c => ?_)
  rw [List.mem_filter, List.mem_dedup, decide_eq_true_iff, buildHistogram_pos_iff]
  exact and_iff_right (mem_allColours c)

theorem countP_buildHistogram_pos_le (px : List Pixel) :
    (allColours.countP fun c => decide (0 < buildHistogram px c)) ≤ min px.length 256 := by
  refine le_min ?_ (List.countP_le_length.trans_eq allColours_length)
  rw [countP_buildHistogram_pos]
  exact (List.dedup_sublist _).length_le.trans_eq (List.length_map _)

theorem buildHistogram_of_perm {px px' : List Pixel} (same : (px.map quantize).Perm (px'.map quantize)) (c : Byte) :
    buildHistogram px c = buildHistogram px' c := by
  rw [buildHistogram_eq_count, buildHistogram_eq_count, same.count_eq]

/-- Settles O13: one lemma for each clause of R61. -/
theorem histogramCountsEveryPixelOnce : Obligations.HistogramCountsEveryPixelOnce :=
  fun px => ⟨sum_buildHistogram px, buildHistogram_pos_iff px, countP_buildHistogram_pos px,
    countP_buildHistogram_pos_le px, fun _ => buildHistogram_of_perm⟩

/-! ### Single operations -/

/-- Settles O10: the operation and the accepted START both leave the cleared counter file. -/
theorem histClrZeroesEveryCounter : Obligations.HistClrZeroesEveryCounter :=
  ⟨rfl, fun _ => ⟨Vector.replicate 256 0, rfl, histGet_clear⟩,
    fun m _ accepts => ⟨_, exec_commandOf_accepts m accepts, histGet_clear⟩⟩

/-- Settles O11: counting the one pixel writes the one counter. -/
theorem histAccCountsOnePixel : Obligations.HistAccCountsOnePixel :=
  ⟨rfl, fun _ hk inMemory room => ⟨_, exec_histAcc_counts hk inMemory room, histGet_histSet_same _ _ _,
    fun _ => histGet_histSet_other _ _⟩⟩

end Sys2Proof.Machine
end

section
/-! PROOFS. The Palette Selector (R62 to R66). The rest of a selection pass offers the rest of the colours
(`repeatExec_pselIns`), and offering all of them leaves the first 16 of the order of R65 (`offerColours_holds_ranking`).
The facts of R66 follow from the ranking of the 256 colours: it is strict, so a list of them in that order is the ranking
(`ranking_eq_of_perm`), and it is the colours that occur followed by those that do not (`ranking_eq_append`). -/

namespace Sys2Proof.Machine

/-! ### The selection pass -/

/-- The rest of a selection pass offers the rest of the colours. -/
theorem repeatExec_pselIns {steps : Nat} {s : State} (rest : s.c + steps = 256) :
    repeatExec .pselIns steps s =
      .next { s with pal := offerColours (histGet s.hist) s.pal (allColours.drop s.c), c := 256 } := by
  induction steps generalizing s with
  | zero =>
    have atEnd : s.c = 256 := rest
    rw [atEnd, allColours_drop_all, ← atEnd]
    rfl
  | succ steps ih =>
    have hc : s.c < 256 := by omega
    have offered : exec .pselIns s = .next { s with
        pal := offerColour s.pal (BitVec.ofNat 8 s.c) (histGet s.hist (BitVec.ofNat 8 s.c)), c := s.c + 1 } :=
      execPselIns_next hc
    rw [repeatExec, offered, andThen_next, ih ((Nat.add_right_comm s.c 1 steps).trans rest), allColours_drop hc]
    rfl

/-- The 256 colours in the order of R65, of which the palette is the first 16. -/
def ranking (h : Byte → Nat) : List Byte := allColours.insertionSort (ranksBefore h)

theorem selectPalette_eq_take (h : Byte → Nat) : selectPalette h = (ranking h).take 16 := rfl

theorem ranking_perm (h : Byte → Nat) : (ranking h).Perm allColours := List.perm_insertionSort _ _

theorem ranking_pairwise (h : Byte → Nat) : (ranking h).Pairwise (ranksBefore h) :=
  insertionSort_pairwise h allColours_nodup

theorem ranking_length (h : Byte → Nat) : (ranking h).length = 256 :=
  (ranking_perm h).length_eq.trans allColours_length

theorem mem_ranking (h : Byte → Nat) (c : Byte) : c ∈ ranking h := (ranking_perm h).mem_iff.2 (mem_allColours c)

/-- Offering all colours to an unfilled palette leaves the best 16 of them in it, with their counts. -/
theorem offerColours_holds_ranking (h : Byte → Nat) {pal : Vector PalSlot 16}
    (unfilled : ∀ i : Fin 16, pal[i].palv = false) : HoldsColours h (offerColours h pal allColours) (ranking h) := by
  have empty : HoldsColours h pal [] := ⟨fun i => .unfilled (unfilled i)⟩
  have offered := offerColours_holds empty allColours_increasing fun _ hb => absurd hb List.not_mem_nil
  rwa [foldl_orderedInsert_eq_insertionSort] at offered

/-- Settles O16: the pass offers all 256 colours, more than the slots there are to fill. -/
theorem selectionPassSelectsThePalette : Obligations.SelectionPassSelectsThePalette := by
  intro s start unfilled
  have colours := paletteBytes_offerColours (histGet s.hist) unfilled
  refine ⟨offerColours (histGet s.hist) s.pal allColours, ?_, colours, fun i => ?_⟩
  · have pass := repeatExec_pselIns (s := s) (steps := 256) (by omega)
    rwa [start, List.drop_zero] at pass
  · have inside : i.val < (ranking (histGet s.hist)).length := by rw [ranking_length]; omega
    have slot := (offerColours_holds_ranking (histGet s.hist) unfilled).slot_of_some i.isLt
      (List.getElem?_eq_getElem inside)
    rw [Fin.getElem_fin, slot]
    exact ⟨rfl, rfl⟩

/-! ### Single operations -/

/-- An offer whose place in the palette R63 finds at `j`. -/
theorem offerColour_of_least {pal : Vector PalSlot 16} {n : Nat} {j : Fin 16} (q : Byte)
    (here : pal[j].palv = false ∨ pal[j].paln < n)
    (earlier : ∀ i : Fin 16, i < j → pal[i].palv = true ∧ n ≤ pal[i].paln) :
    offerColour pal q n = shiftInsert pal j { palv := true, palc := q, paln := n } := by
  rw [offerColour, insertPos_of_least j.isLt here fun i hi => earlier ⟨i, hi.trans j.isLt⟩ hi]

theorem offerColour_of_full {pal : Vector PalSlot 16} {n : Nat} (q : Byte)
    (full : ∀ i : Fin 16, pal[i].palv = true ∧ n ≤ pal[i].paln) : offerColour pal q n = pal := by
  rw [offerColour, insertPos_of_full full]

/-- Settles O15: the two outcomes of an offer, the inserted palette read slot by slot. -/
theorem pselInsShiftsAndInserts : Obligations.PselInsShiftsAndInserts := by
  refine ⟨rfl, fun s hc => ?_⟩
  have offered : exec .pselIns s = _ := execPselIns_next hc
  refine ⟨fun j here earlier => ?_, fun full => ?_⟩
  · rw [offerColour_of_least _ here earlier] at offered
    refine ⟨_, offered, fun i => ⟨fun before => ?_, fun same => ?_, fun after => ?_⟩⟩ <;> rw [shiftInsert_getElem]
    · exact if_pos before
    · rw [same, if_neg (Nat.lt_irrefl _), if_pos rfl]
    · rw [if_neg (Nat.lt_asymm after), if_neg (Nat.ne_of_gt after)]
  · rwa [offerColour_of_full _ full] at offered

/-- Settles O14: the operation and the accepted START both unfill the slots of the old palette. -/
theorem pselClrUnfillsEverySlot : Obligations.PselClrUnfillsEverySlot :=
  ⟨rfl, fun s => ⟨_, rfl, fun i => congrArg PalSlot.palv (clearPal_slot s i)⟩,
    fun m s accepts => ⟨_, exec_commandOf_accepts m accepts, fun i => congrArg PalSlot.palv (clearPal_slot s i)⟩⟩

/-! ### The ranking -/

theorem ranking_eq_of_perm {h : Byte → Nat} {qs : List Byte} (all : qs.Perm allColours)
    (ordered : qs.Pairwise (ranksBefore h)) : ranking h = qs :=
  ((ranking_perm h).trans all.symm).eq_of_pairwise (fun _ _ _ _ ab ba => absurd ba (ranksBefore_asymm ab))
    (ranking_pairwise h) ordered

/-- Settles O17: the palette is the front of the ranking, and a colour outside it stands behind. -/
theorem paletteHoldsTheSixteenBestColours : Obligations.PaletteHoldsTheSixteenBestColours := by
  intro h
  have front : (selectPalette h).Sublist (ranking h) := List.take_sublist 16 _
  refine ⟨?_, ((ranking_perm h).nodup_iff.2 allColours_nodup).sublist front, (ranking_pairwise h).sublist front,
    fun c outside p hp => ?_⟩
  · rw [selectPalette_eq_take, List.length_take, ranking_length]
    rfl
  · have split : (selectPalette h ++ (ranking h).drop 16).Pairwise (ranksBefore h) := by
      rw [selectPalette_eq_take, List.take_append_drop]
      exact ranking_pairwise h
    have behind : c ∈ (ranking h).drop 16 := by
      have somewhere := mem_ranking h c
      rw [← List.take_append_drop 16 (ranking h)] at somewhere
      exact (List.mem_append.1 somewhere).resolve_left outside
    exact (List.pairwise_append.1 split).2.2 p hp c behind

/-- The colours of non-zero count in the order of R65. -/
def occurring (h : Byte → Nat) : List Byte :=
  (allColours.filter fun c => decide (0 < h c)).insertionSort (ranksBefore h)

/-- The colours of count 0 in increasing order. -/
def absent (h : Byte → Nat) : List Byte := allColours.filter fun c => h c == 0

theorem mem_occurring {h : Byte → Nat} {c : Byte} : c ∈ occurring h ↔ 0 < h c := by
  simp [occurring, mem_allColours]

theorem mem_absent {h : Byte → Nat} {c : Byte} : c ∈ absent h ↔ h c = 0 := by
  simp [absent, mem_allColours]

theorem occurring_length (h : Byte → Nat) :
    (occurring h).length = allColours.countP fun c => decide (0 < h c) := by
  rw [occurring, List.length_insertionSort, List.countP_eq_length_filter]

theorem occurring_pairwise (h : Byte → Nat) : (occurring h).Pairwise (ranksBefore h) :=
  insertionSort_pairwise h (allColours_nodup.filter _)

/-- Among colours of count 0 the order of R65 is the numeric one. -/
theorem absent_pairwise (h : Byte → Nat) : (absent h).Pairwise (ranksBefore h) :=
  (allColours_increasing.filter _).imp_of_mem fun ha hb lt =>
    .inr ⟨(mem_absent.1 ha).trans (mem_absent.1 hb).symm, lt⟩

/-- The colours that occur rank before those that do not (R66(d)). -/
theorem ranking_eq_append (h : Byte → Nat) : ranking h = occurring h ++ absent h := by
  refine ranking_eq_of_perm ?_ (List.pairwise_append.2 ⟨occurring_pairwise h, absent_pairwise h, fun a ha b hb => ?_⟩)
  · have complement : absent h = allColours.filter fun c => !decide (0 < h c) :=
      List.filter_congr fun c _ => by rw [Bool.eq_iff_iff]; simp
    rw [complement]
    exact ((List.perm_insertionSort _ _).append_right _).trans (List.filter_append_perm _ _)
  · exact .inl ((mem_absent.1 hb).trans_lt (mem_occurring.1 ha))

theorem selectPalette_of_many {h : Byte → Nat} (many : 16 ≤ (occurring h).length) :
    selectPalette h = (occurring h).take 16 := by
  rw [selectPalette_eq_take, ranking_eq_append, List.take_append_of_le_length many]

theorem selectPalette_of_few {h : Byte → Nat} (few : (occurring h).length ≤ 16) :
    selectPalette h = occurring h ++ (absent h).take (16 - (occurring h).length) := by
  rw [selectPalette_eq_take, ranking_eq_append, List.take_append, List.take_of_length_le few]

theorem selectPalette_of_one {h : Byte → Nat} {c : Byte} (occurs : 0 < h c) (alone : ∀ c', c' ≠ c → h c' = 0) :
    selectPalette h = c :: (allColours.filter fun c' => c' != c).take 15 := by
  have zero_iff (c' : Byte) : h c' = 0 ↔ c' ≠ c := ⟨fun zero same => by simp [← same, zero] at occurs, alone c'⟩
  have one : occurring h = [c] := by
    have distinct : (occurring h).Nodup := (List.perm_insertionSort _ _).nodup_iff.2 (allColours_nodup.filter _)
    refine List.perm_singleton.1 ((List.perm_ext_iff_of_nodup distinct (List.nodup_singleton c)).2 fun c' => ?_)
    rw [mem_occurring, List.mem_singleton, Nat.pos_iff_ne_zero, ne_eq, zero_iff, not_ne_iff]
  have others : absent h = allColours.filter fun c' => c' != c :=
    List.filter_congr fun c' _ => by rw [Bool.eq_iff_iff]; simp [zero_iff]
  rw [selectPalette_of_few (by simp [one]), one, others]
  rfl

theorem selectPalette_of_none {h : Byte → Nat} (zero : ∀ c, h c = 0) : selectPalette h = allColours.take 16 := by
  have noneOccurs : occurring h = [] := List.eq_nil_iff_forall_not_mem.2 fun c => by simp [mem_occurring, zero c]
  have allAbsent : absent h = allColours := List.filter_eq_self.2 fun c _ => by simp [zero c]
  rw [selectPalette_of_few (by simp [noneOccurs]), noneOccurs, allAbsent]
  rfl

/-- Settles O18: the clauses are the ranking's two parts cut at 16, by how many colours occur. -/
theorem paletteFillsUpWithTheSmallestAbsentColours : Obligations.PaletteFillsUpWithTheSmallestAbsentColours := by
  intro h
  rw [← occurring_length]
  refine ⟨fun many p hp => ?_, fun few => ?_, fun _ => selectPalette_of_one, selectPalette_of_none⟩
  · rw [selectPalette_of_many many] at hp
    exact mem_occurring.1 (List.mem_of_mem_take hp)
  · exact ⟨occurring h, rfl, fun _ => mem_occurring, occurring_pairwise h, selectPalette_of_few few.le⟩

end Sys2Proof.Machine
end

section
/-! PROOFS. The Color Matcher (R67 to R69). The distance is the sum of the distances of the three fields, so it is a metric
because the distance of naturals is one. The loop of R68 keeps the first nearest entry of the part of the palette it has
seen (`matchLoop_firstNearest`); a list has only one first nearest entry (`FirstNearest.unique`), and for a colour of the
palette that is the entry where it first stands. -/

namespace Sys2Proof.Machine

/-! ### The fields of a colour -/

theorem qRed_eq_field (q : Byte) : qRed q = (q.extractLsb' 5 3).toNat := by
  rw [qRed_eq_div, BitVec.extractLsb'_toNat, Nat.shiftRight_eq_div_pow]
  omega

theorem qGreen_eq_field (q : Byte) : qGreen q = (q.extractLsb' 2 3).toNat := by
  rw [qGreen_eq_mod, BitVec.extractLsb'_toNat, Nat.shiftRight_eq_div_pow]

theorem qBlue_eq_field (q : Byte) : qBlue q = (q.extractLsb' 0 2).toNat := by
  rw [qBlue_eq_mod, BitVec.extractLsb'_toNat, Nat.shiftRight_zero]

theorem colour_eq_iff_fields (a b : Byte) : a = b ↔ (qRed a = qRed b ∧ qGreen a = qGreen b) ∧ qBlue a = qBlue b := by
  rw [← append_fields a, ← append_fields b, append_eq_append_iff, append_eq_append_iff, append_fields, append_fields]
  simp only [qRed_eq_field, qGreen_eq_field, qBlue_eq_field, BitVec.toNat_inj]

/-! ### The distance (R67) -/

theorem absdiff_eq_dist (m n : Nat) : absdiff m n = Nat.dist m n := by
  unfold absdiff
  split
  · exact (Nat.dist_eq_sub_of_le_right ‹_›).symm
  · exact (Nat.dist_eq_sub_of_le (Nat.le_of_not_le ‹_›)).symm

theorem absdiff_eq_natAbs (m n : Nat) : absdiff m n = ((m : Int) - n).natAbs := by
  unfold absdiff
  split <;> omega

theorem absdiff_toNat_lt {w : Nat} (x y : BitVec w) : absdiff x.toNat y.toNat < 2 ^ w := by
  unfold absdiff
  split <;> omega

theorem absdiff_eq_zero_iff (m n : Nat) : absdiff m n = 0 ↔ m = n := by
  rw [absdiff_eq_dist]
  exact ⟨Nat.eq_of_dist_eq_zero, Nat.dist_eq_zero⟩

theorem absdiff_comm (m n : Nat) : absdiff m n = absdiff n m := by
  rw [absdiff_eq_dist, absdiff_eq_dist, Nat.dist_comm]

theorem absdiff_triangle (l m n : Nat) : absdiff l n ≤ absdiff l m + absdiff m n := by
  simp only [absdiff_eq_dist]
  exact Nat.dist.triangle_inequality l m n

theorem colourDist_eq_natAbs (a b : Byte) :
    colourDist a b =
      ((a.extractLsb' 5 3).toNat - (b.extractLsb' 5 3).toNat : Int).natAbs +
      ((a.extractLsb' 2 3).toNat - (b.extractLsb' 2 3).toNat : Int).natAbs +
      ((a.extractLsb' 0 2).toNat - (b.extractLsb' 0 2).toNat : Int).natAbs := by
  simp only [colourDist, absdiff_eq_natAbs, qRed_eq_field, qGreen_eq_field, qBlue_eq_field]

/-- The fields are 3, 3 and 2 bits wide. -/
theorem colourDist_le (a b : Byte) : colourDist a b ≤ 17 := by
  have red := absdiff_toNat_lt (a.extractLsb' 5 3) (b.extractLsb' 5 3)
  have green := absdiff_toNat_lt (a.extractLsb' 2 3) (b.extractLsb' 2 3)
  have blue := absdiff_toNat_lt (a.extractLsb' 0 2) (b.extractLsb' 0 2)
  simp only [colourDist, qRed_eq_field, qGreen_eq_field, qBlue_eq_field]
  omega

theorem colourDist_eq_zero_iff (a b : Byte) : colourDist a b = 0 ↔ a = b := by
  simp only [colour_eq_iff_fields, colourDist, Nat.add_eq_zero_iff, absdiff_eq_zero_iff]

@[simp] theorem colourDist_self (a : Byte) : colourDist a a = 0 := (colourDist_eq_zero_iff a a).2 rfl

theorem colourDist_comm (a b : Byte) : colourDist a b = colourDist b a := by
  simp only [colourDist, absdiff_comm]

theorem colourDist_triangle (a b c : Byte) : colourDist a c ≤ colourDist a b + colourDist b c := by
  have red := absdiff_triangle (qRed a) (qRed b) (qRed c)
  have green := absdiff_triangle (qGreen a) (qGreen b) (qGreen c)
  have blue := absdiff_triangle (qBlue a) (qBlue b) (qBlue c)
  unfold colourDist
  omega

/-- Settles O19: the result port is wide enough for the distance, and the laws are those of the distance. -/
theorem distIsTheFieldwiseMetric : Obligations.DistIsTheFieldwiseMetric := by
  refine ⟨rfl, fun s => ⟨_, rfl, ?_⟩, by decide, fun a b c =>
    ⟨colourDist_le a b, colourDist_eq_zero_iff a b, colourDist_comm a b, colourDist_triangle a b c⟩⟩
  have fits : colourDist s.ports.a s.ports.b < 2 ^ 5 := (colourDist_le _ _).trans_lt (by decide)
  rw [← colourDist_eq_natAbs, BitVec.toNat_ofNat, Nat.mod_eq_of_lt fits]
  exact ⟨rfl, rfl⟩

/-! ### The first nearest entry (R68) -/

/-- `best` is the least index at which an entry of `pal` is at minimum distance from `c`. -/
structure FirstNearest (c : Byte) (pal : List Byte) (best : Nat) : Prop where
  inside : best < pal.length
  nearest : ∀ p ∈ pal, colourDist c pal[best] ≤ colourDist c p
  first : ∀ i (before : i < best), colourDist c pal[best] < colourDist c (pal[i]'(before.trans inside))

section
variable {c p : Byte} {pal : List Byte} {best other : Nat}

theorem firstNearest_singleton (c p : Byte) : FirstNearest c [p] 0 where
  inside := Nat.one_pos
  nearest := by simp
  first := nofun

/-- An equal distance does not replace the best entry. -/
theorem FirstNearest.append_of_le (h : FirstNearest c pal best)
    (far : colourDist c (pal[best]'h.inside) ≤ colourDist c p) :
    FirstNearest c (pal ++ [p]) best where
  inside := by simpa using h.inside.le
  nearest q hq := by
    rw [List.getElem_append_left h.inside]
    rcases List.mem_append.1 hq with seen | new
    · exact h.nearest q seen
    · rwa [List.mem_singleton.1 new]
  first i before := by
    rw [List.getElem_append_left h.inside, List.getElem_append_left (before.trans h.inside)]
    exact h.first i before

/-- A smaller distance makes the new entry the best one. -/
theorem FirstNearest.append_of_lt (h : FirstNearest c pal best)
    (near : colourDist c p < colourDist c (pal[best]'h.inside)) :
    FirstNearest c (pal ++ [p]) pal.length where
  inside := by simp
  nearest q hq := by
    rw [List.getElem_concat_length rfl]
    rcases List.mem_append.1 hq with seen | new
    · exact near.le.trans (h.nearest q seen)
    · rw [List.mem_singleton.1 new]
  first i before := by
    rw [List.getElem_concat_length rfl, List.getElem_append_left before]
    exact near.trans_le (h.nearest _ (List.getElem_mem before))

theorem FirstNearest.not_lt (h : FirstNearest c pal best) (h' : FirstNearest c pal other) : ¬ other < best :=
  fun before => (h.first other before).not_ge (h'.nearest _ (List.getElem_mem h.inside))

theorem FirstNearest.unique (h : FirstNearest c pal best) (h' : FirstNearest c pal other) : best = other :=
  Nat.le_antisymm (Nat.not_lt.1 (h.not_lt h')) (Nat.not_lt.1 (h'.not_lt h))

/-- The loop extends the entries seen by the rest of the palette. -/
theorem matchLoop_firstNearest {rest : List Byte} (h : FirstNearest c pal best) :
    FirstNearest c (pal ++ rest) (matchLoop c rest pal.length best (colourDist c (pal[best]'h.inside))) := by
  induction rest generalizing pal best with
  | nil => rwa [List.append_nil]
  | cons p rest ih =>
    rw [List.append_cons, matchLoop]
    split
    · have step := ih (h.append_of_lt ‹_›)
      rwa [List.length_append, List.length_singleton, List.getElem_concat_length rfl] at step
    · have step := ih (h.append_of_le (Nat.not_lt.1 ‹_›))
      rwa [List.length_append, List.length_singleton, List.getElem_append_left h.inside] at step

/-- An index of the 16 entries fits the 4 bits of a PaletteIndex. -/
theorem matchIndex_firstNearest (c : Byte) (h : pal.length = 16) : FirstNearest c pal (matchIndex c pal).toNat := by
  cases pal with
  | nil => cases h
  | cons p rest =>
    have found : FirstNearest c (p :: rest) _ := matchLoop_firstNearest (firstNearest_singleton c p)
    have fits := found.inside.trans_eq h
    rw [matchIndex, BitVec.toNat_ofNat]
    rwa [← Nat.mod_eq_of_lt fits] at found

theorem firstNearest_idxOf (mem : c ∈ pal) : FirstNearest c pal (pal.idxOf c) where
  inside := List.idxOf_lt_length_of_mem mem
  nearest p _ := by
    rw [List.getElem_idxOf, colourDist_self]
    exact Nat.zero_le _
  first i before := by
    rw [List.getElem_idxOf, colourDist_self, Nat.pos_iff_ne_zero, ne_eq, colourDist_eq_zero_iff]
    exact fun same => by simpa [← same] using List.not_of_lt_findIdx before

theorem matchIndex_of_mem (h : pal.length = 16) (mem : c ∈ pal) : (matchIndex c pal).toNat = pal.idxOf c :=
  (matchIndex_firstNearest c h).unique (firstNearest_idxOf mem)

end

/-- Settles O21: the entry where the colour first stands is at distance 0, and among distinct entries it is the only
one. -/
theorem paletteMemberMatchesItself : Obligations.PaletteMemberMatchesItself := by
  refine fun pal sixteen => ⟨fun c => matchIndex_of_mem sixteen, fun distinct i c entry => ?_⟩
  obtain ⟨inside, rfl⟩ := List.getElem?_eq_some_iff.1 entry
  rw [matchIndex_of_mem sixteen (List.getElem_mem inside), distinct.idxOf_getElem]

/-! ### `MATCH` -/

theorem paletteBytes_length (pal : Vector PalSlot 16) : (paletteBytes pal).length = 16 := by simp [paletteBytes]

theorem paletteBytes_getElem (pal : Vector PalSlot 16) (i : Fin 16) (inside : i.val < (paletteBytes pal).length) :
    (paletteBytes pal)[i.val] = pal[i].palc := by simp [paletteBytes]

theorem paletteColours_of_unfilled {s : State} {i : Fin 16} (unfilled : s.pal[i].palv = false) :
    paletteColours s = .error .unsetPaletteSlot :=
  if_neg fun all => Bool.false_ne_true (unfilled.symm.trans ((all_filled_iff s).1 all i))

theorem exec_matchIdx_of_filled {s : State} (filled : ∀ i : Fin 16, s.pal[i].palv = true) :
    exec .matchIdx s = .next { s with ports := { s.ports with m := matchIndex s.ports.a (paletteBytes s.pal) } } := by
  change execMatchIdx s = _
  rw [execMatchIdx, paletteColours_eq_ok.2 ⟨filled, rfl⟩, withRead_ok, paletteBytes]

theorem exec_matchIdx_of_unfilled {s : State} {i : Fin 16} (unfilled : s.pal[i].palv = false) :
    exec .matchIdx s = .fault .unsetPaletteSlot := by
  change execMatchIdx s = _
  rw [execMatchIdx, paletteColours_of_unfilled unfilled, withRead_error]

/-- Settles O20: the index `MATCH` answers is that of the first nearest of the 16 colours. -/
theorem matchAnswersTheFirstNearestEntry : Obligations.MatchAnswersTheFirstNearestEntry := by
  refine ⟨rfl, fun s => ⟨fun filled => ?_, fun ⟨_, unfilled⟩ => exec_matchIdx_of_unfilled unfilled⟩⟩
  have sixteen := paletteBytes_length s.pal
  obtain ⟨inside, nearest, first⟩ := matchIndex_firstNearest s.ports.a sixteen
  refine ⟨⟨_, (matchIndex s.ports.a (paletteBytes s.pal)).isLt⟩, ?_, fun i => ?_, fun i before => ?_⟩
  · rw [exec_matchIdx_of_filled filled, BitVec.ofNat_toNat, BitVec.setWidth_eq]
  · have entry := nearest _ (List.getElem_mem (i.isLt.trans_eq sixteen.symm))
    rwa [paletteBytes_getElem, paletteBytes_getElem s.pal ⟨_, _⟩] at entry
  · have entry := first i before
    rwa [paletteBytes_getElem, paletteBytes_getElem s.pal ⟨_, _⟩] at entry

end Sys2Proof.Machine
end

section
/-! PROOFS. The Run-Length Encoder as the machine runs it (R70 to R73). What `RLE.STEP` has emitted, followed by what is
still to come (`runsAhead`), stays the same through a pass; from the first pixel that is `rle` of the matched indices, and
after the last pixel it is what `RLE.END` emits. -/

namespace Sys2Proof.Machine

/-! ### `RLE.CLR` -/

/-- Settles O22: the operation and the accepted START both clear the run state. -/
theorem rleClrForgetsTheRun : Obligations.RleClrForgetsTheRun :=
  ⟨rfl, fun s => ⟨s.cur, rfl⟩, fun m _ accepts => ⟨_, exec_commandOf_accepts m accepts, rfl, rfl⟩⟩

/-! ### `RLE.STEP` -/

/-- The two nibbles of a Run byte do not overlap (R47). -/
theorem runByte_toNat (index count : Nibble) : (runByte index count).toNat = index.toNat + 16 * count.toNat := by
  revert index count
  decide

/-- The index `RLE.STEP` matches the pixel at `K` to. -/
def State.matched (s : State) : Nibble := matchIndex (quantize (imgWord s s.k)) (paletteBytes s.pal)

/-- What `RLE.STEP` leaves alone of the state the pass reads or the palette was built from. -/
structure RunFrame (s t : State) : Prop where
  cfg : t.cfg = s.cfg := by rfl
  n : t.n = s.n := by rfl
  img : t.img = s.img := by rfl
  pal : t.pal = s.pal := by rfl
  hist : t.hist = s.hist := by rfl

/-- What the rest of the run-length pass emits, `RLE.END` included: the scan ahead in compressed mode. -/
def State.runsAhead (s : State) : List Byte := { s with lmode := 2#2 }.scanAhead (s.pixelsFrom s.k)

section
variable {s t u : State}

theorem RunFrame.trans (first : RunFrame s t) (second : RunFrame t u) : RunFrame s u where
  cfg := second.cfg.trans first.cfg
  n := second.n.trans first.n
  img := second.img.trans first.img
  pal := second.pal.trans first.pal
  hist := second.hist.trans first.hist

/-- `RLE.STEP` where it does not fault, with the flush condition of R71. -/
theorem exec_rleStep (hk : s.k < s.n) (inMemory : s.k < s.cfg.imgWords) (filled : ∀ i : Fin 16, s.pal[i].palv = true) :
    exec .rleStep s = .next
      (if s.curv = false ∨ s.matched ≠ s.cur ∨ 15 ≤ s.run.toNat ∨ s.k + 1 = s.n then
        { s with
          out := s.out ++ if s.curv = true then [runByte s.cur s.run] else []
          curv := true, cur := s.matched, run := 0#4, k := s.k + 1 }
      else { s with run := s.run + 1#4, k := s.k + 1 }) := by
  change execRleStep s = _
  rw [execRleStep, memRead_ok hk inMemory, withRead_ok, paletteColours_eq_ok.2 ⟨filled, rfl⟩, withRead_ok,
    runDiffers_eq, withRead_ok, pendingRun_eq, withRead_ok, apply_ite Host.Outcome.next]
  refine if_congr ?_ rfl rfl
  cases s.curv <;> simp [State.matched, paletteBytes]

/-- Settles O23: the branches of the statement are those of the flush condition, with no active run or with one. -/
theorem rleStepFlushesOrExtends : Obligations.RleStepFlushesOrExtends := by
  refine ⟨rfl, fun s hk inMemory filled idx matched => ?_⟩
  obtain rfl : idx = s.matched := matched
  rw [exec_rleStep hk inMemory filled]
  refine ⟨fun inactive => ?_, fun active flush => ⟨runByte s.cur s.run, runByte_toNat _ _, ?_⟩,
    fun active same below notLast => ⟨s.run + 1#4, ?_, ?_⟩⟩
  · rw [if_pos (.inl inactive)]
    simp [inactive]
  · have flush : s.matched ≠ s.cur ∨ 15 ≤ s.run.toNat ∨ s.k + 1 = s.n := flush.imp_right (by omega)
    rw [if_pos (.inr flush)]
    simp [active]
  · rw [BitVec.toNat_add]
    exact Nat.mod_eq_of_lt (Nat.succ_lt_succ below)
  · have notLast : s.k + 1 ≠ s.n := by omega
    rw [if_neg (by simp [active, same, below, notLast])]

/-- `RLE.STEP` does not read `LMODE` (notes/assumptions/8.md). -/
theorem execRleStep_withMode (m : BitVec 2) (h : execRleStep s = .next t) :
    execRleStep { s with lmode := m } = .next { t with lmode := m } := by
  obtain ⟨hk, inMemory, filled, -⟩ := execRleStep_eq_next h
  obtain rfl := Host.Outcome.next.inj ((exec_rleStep hk inMemory filled).symm.trans h)
  refine (exec_rleStep (s := { s with lmode := m }) hk inMemory filled).trans (congrArg Host.Outcome.next ?_)
  exact Eq.symm (apply_ite (fun t : State => { t with lmode := m }) _ _ _)

theorem execRleStep_frame (h : execRleStep s = .next t) : RunFrame s t ∧ t.k = s.k + 1 := by
  obtain ⟨-, -, -, ⟨-, rfl⟩ | ⟨-, -, -, -, rfl⟩⟩ := execRleStep_eq_next h <;> exact ⟨{}, rfl⟩

theorem execRleStep_runsAhead (h : execRleStep s = .next t) : t.out ++ t.runsAhead = s.out ++ s.runsAhead :=
  execRleStep_scanAhead (s := { s with lmode := 2#2 }) rfl (execRleStep_withMode 2#2 h)

/-- The last pixel starts a run of its own (R71 corner case 3). -/
theorem execRleStep_last (last : s.k + 1 = s.n) (h : execRleStep s = .next t) :
    t.curv = true ∧ t.run = 0#4 ∧ t.cur = s.matched := by
  obtain ⟨-, -, -, ⟨-, rfl⟩ | ⟨-, -, -, notLast, -⟩⟩ := execRleStep_eq_next h
  · exact ⟨rfl, rfl, rfl⟩
  · exact absurd last notLast

/-! ### `RLE.END` -/

theorem exec_rleEnd (s : State) :
    exec .rleEnd s = .next { s with
      out := s.out ++ if s.cfg.fixFinalRun = true ∧ s.curv = true then [runByte s.cur s.run] else [] } := by
  obtain ⟨t, op⟩ := execRleEnd_answers s
  rw [← execRleEnd_eq_next op]
  exact op

theorem exec_rleEnd_runsAhead (atEnd : s.k = s.n) : exec .rleEnd s = .next { s with out := s.out ++ s.runsAhead } := by
  rw [exec_rleEnd, State.runsAhead, (pixelsFrom_eq_nil atEnd.le).2 atEnd, scanAhead_nil_compressed rfl]

/-! ### The run-length pass -/

/-- With no active run the count does not matter (R70). -/
theorem rleFrom_none (fix : Bool) (idx : List Nibble) (run : Nat) : rleFrom fix idx none run = rle idx fix := by
  cases idx <;> rfl

theorem runsAhead_of_start (start : s.k = 0) (inactive : s.curv = false) :
    s.runsAhead = rle (matchIndices (scanPixels s s.n) (paletteBytes s.pal)) s.cfg.fixFinalRun := by
  rw [State.runsAhead, scanAhead_compressed rfl, if_neg (by simp [inactive]), rleFrom_none, State.pixelsFrom, start,
    List.drop_zero]

theorem repeatExec_succ_last (i : Instr) (steps : Nat) (s : State) :
    repeatExec i (steps + 1) s = andThen (repeatExec i steps s) (exec i) := by
  induction steps generalizing s with
  | zero =>
    change andThen (exec i s) .next = exec i s
    cases exec i s <;> rfl
  | succ steps ih =>
    change andThen (exec i s) (repeatExec i (steps + 1)) = andThen (andThen (exec i s) (repeatExec i steps)) (exec i)
    rw [funext ih]
    cases exec i s <;> rfl

/-- A part of the pass moves bytes from those to come to those emitted. -/
theorem repeatExec_rleStep (filled : ∀ i : Fin 16, s.pal[i].palv = true) (fits : s.n ≤ s.cfg.imgWords) {steps : Nat}
    (inside : s.k + steps ≤ s.n) :
    ∃ t, repeatExec .rleStep steps s = .next t ∧ RunFrame s t ∧ t.k = s.k + steps ∧
      t.out ++ t.runsAhead = s.out ++ s.runsAhead := by
  induction steps with
  | zero => exact ⟨s, rfl, {}, rfl, rfl⟩
  | succ steps ih =>
    obtain ⟨u, pass, frame, hk, stream⟩ := ih (Nat.le_of_succ_le inside)
    obtain ⟨t, op⟩ := execRleStep_answers (s := u) (by rw [hk, frame.n]; exact inside) (by rwa [frame.n, frame.cfg])
      (by rwa [frame.pal])
    obtain ⟨frame', hk'⟩ := execRleStep_frame op
    refine ⟨t, ?_, frame.trans frame', by rw [hk', hk, Nat.add_assoc], (execRleStep_runsAhead op).trans stream⟩
    rw [repeatExec_succ_last, pass]
    exact op

end

/-- Settles O25: all bytes are to come at the first pixel, and after the last one `RLE.END` emits those that still are. -/
theorem runLengthPassAppendsTheRuns : Obligations.RunLengthPassAppendsTheRuns := by
  intro s start inactive filled fits
  obtain ⟨t, pass, frame, hk, stream⟩ := repeatExec_rleStep filled fits (steps := s.n) (by omega)
  have atEnd : t.k = s.n := by omega
  rw [runsAhead_of_start start inactive] at stream
  rw [pass, andThen_next, exec_rleEnd_runsAhead (atEnd.trans frame.n.symm)]
  exact ⟨_, rfl, atEnd, stream, frame.pal, frame.hist⟩

/-- Settles O24: by the two flags of `RLE.END`; the last `RLE.STEP` of the pass starts the run that `RLE.END` finds. -/
theorem rleEndDropsOrFlushesTheLastRun : Obligations.RleEndDropsOrFlushesTheLastRun := by
  refine ⟨rfl, fun s => ⟨fun drop => ?_, fun _ inactive => ?_, fun fix active => ⟨_, runByte_toNat s.cur s.run, ?_⟩,
    fun start _ pixels fits filled => ?_⟩⟩
  · rw [exec_rleEnd, if_neg (by simp [drop]), List.append_nil]
  · rw [exec_rleEnd, if_neg (by simp [inactive]), List.append_nil]
  · rw [exec_rleEnd, if_pos ⟨fix, active⟩]
  · obtain ⟨m, hm⟩ : ∃ m, s.n = m + 1 := ⟨s.n - 1, by omega⟩
    obtain ⟨u, before, frame, hk, -⟩ := repeatExec_rleStep filled fits (steps := m) (by omega)
    obtain ⟨t, pass, -⟩ := repeatExec_rleStep filled fits (steps := m + 1) (by omega)
    have op : execRleStep u = .next t := by
      rw [repeatExec_succ_last, before] at pass
      exact pass
    have last : u.k + 1 = u.n := by rw [hk, frame.n]; omega
    have pixel : u.k = s.n - 1 := by omega
    obtain ⟨active, zero, own⟩ := execRleStep_last last op
    rw [State.matched, imgWord_eq_of_img frame.img, frame.pal, pixel] at own
    exact ⟨t, hm ▸ pass, active, zero, own⟩

end Sys2Proof.Machine
end

section
/-! PROOFS. The closed function `rle` (R73, R74). The cases of its scan are those of `RunScan`, over which the facts are
proved for the default variant; the corrected variant only adds a final byte (`rle_true`). -/

namespace Sys2Proof.Machine

/-! ### Run bytes -/

/-- The index field of a Run byte (R47). -/
def runIndex (b : Byte) : Nat := b.toNat % 16

/-- The count field of a Run byte (R47). -/
def runCount (b : Byte) : Nat := b.toNat / 16

@[simp] theorem runIndex_runByte (index count : Nibble) : runIndex (runByte index count) = index.toNat := by
  rw [runIndex, runByte_toNat]
  omega

@[simp] theorem runCount_runByte (index count : Nibble) : runCount (runByte index count) = count.toNat := by
  rw [runCount, runByte_toNat]
  omega

theorem runCount_lt (b : Byte) : runCount b < 16 := Nat.div_lt_of_lt_mul b.isLt

theorem expandRuns_append (bs bs' : List Byte) : expandRuns (bs ++ bs') = expandRuns bs ++ expandRuns bs' :=
  List.flatMap_append

theorem expandRuns_runByte (index count : Nibble) :
    expandRuns [runByte index count] = List.replicate (count.toNat + 1) index := by
  have high : (runByte index count >>> 4).toNat = count.toNat :=
    (Nat.shiftRight_eq_div_pow _ 4).trans (runCount_runByte index count)
  have low : (runByte index count).setWidth 4 = index := BitVec.eq_of_toNat_eq (runIndex_runByte index count)
  rw [expandRuns, List.flatMap_singleton, high, low]

/-- The pixels Run bytes stand for, counted. -/
theorem expandRuns_length (bs : List Byte) : (expandRuns bs).length = (bs.map fun b => runCount b + 1).sum := by
  simp [expandRuns, List.length_flatMap, runCount, Nat.shiftRight_eq_div_pow]

/-- Each Run byte stands for 1 to 16 pixels. -/
theorem expandRuns_length_bounds (bs : List Byte) :
    bs.length ≤ (expandRuns bs).length ∧ (expandRuns bs).length ≤ bs.length * 16 := by
  rw [expandRuns_length]
  constructor
  · simp
  · simpa using List.sum_le_card_nsmul (bs.map fun b => runCount b + 1) 16 (by simpa using fun b _ => runCount_lt b)

/-! ### The scan -/

/-- The scan of R73 with the indices `idx` to come and the run (`cur`, `run`) active: the last pixel has started a run of
its own, or the next pixel flushes and starts a run, or it extends the run. -/
inductive RunScan : List Nibble → Nibble → Nat → Prop
  | last (c : Nibble) : RunScan [] c 0
  | flush {x c : Nibble} {xs : List Nibble} {run : Nat} (capped : run ≤ 15) (ends : x ≠ c ∨ 15 ≤ run ∨ xs = [])
      (next : RunScan xs x 0) : RunScan (x :: xs) c run
  | extend {c : Nibble} {xs : List Nibble} {run : Nat} (below : run < 15) (more : xs ≠ [])
      (next : RunScan xs c (run + 1)) : RunScan (c :: xs) c run

theorem runScan_of_le {idx : List Nibble} {c : Nibble} {run : Nat} (capped : run ≤ 15) (last : idx = [] → run = 0) :
    RunScan idx c run := by
  induction idx generalizing c run with
  | nil => exact last rfl ▸ .last c
  | cons x xs ih =>
    by_cases ends : x ≠ c ∨ 15 ≤ run ∨ xs = []
    · exact .flush capped ends (ih (Nat.zero_le 15) fun _ => rfl)
    · simp only [not_or, not_not, not_le] at ends
      obtain ⟨rfl, below, more⟩ := ends
      exact .extend below more (ih below fun none => absurd none more)

section
variable {idx xs : List Nibble} {x c : Nibble} {run : Nat}

theorem rleFrom_flush (fix : Bool) (ends : x ≠ c ∨ 15 ≤ run ∨ xs = []) :
    rleFrom fix (x :: xs) (some c) run = runByte c (BitVec.ofNat 4 run) :: rleFrom fix xs (some x) 0 :=
  if_pos ends

theorem rleFrom_extend (fix : Bool) (below : run < 15) (more : xs ≠ []) :
    rleFrom fix (c :: xs) (some c) run = rleFrom fix xs (some c) (run + 1) :=
  if_neg (by simp [below, more])

/-- The bytes stand for the active run and the indices to come, without the last pixel. -/
theorem RunScan.expandRuns_rleFrom (scan : RunScan idx c run) :
    expandRuns (rleFrom false idx (some c) run) = (List.replicate (run + 1) c ++ idx).dropLast := by
  induction scan with
  | last c => rfl
  | @flush x c xs run capped ends next ih =>
    have count : (BitVec.ofNat 4 run).toNat = run := Nat.mod_eq_of_lt (Nat.lt_succ_of_le capped)
    rw [rleFrom_flush false ends, List.dropLast_append_cons, ← List.singleton_append, expandRuns_append,
      expandRuns_runByte, count, ih]
    rfl
  | extend below more next ih =>
    rw [rleFrom_extend false below more, ih, List.replicate_succ', ← List.append_cons]

/-- The corrected variant adds the byte of the last pixel. -/
theorem RunScan.rleFrom_true (scan : RunScan idx c run) :
    rleFrom true idx (some c) run = rleFrom false idx (some c) run ++ [runByte (idx.getLastD c) 0#4] := by
  induction scan with
  | last c => rfl
  | flush capped ends next ih =>
    rw [rleFrom_flush true ends, rleFrom_flush false ends, ih, List.getLastD_cons, List.cons_append]
  | extend below more next ih =>
    rw [rleFrom_extend true below more, rleFrom_extend false below more, ih, List.getLastD_cons]

/-- Of two consecutive Run bytes with the same index, the first is at the cap. -/
def SameIndexAtCap (a b : Byte) : Prop := runIndex a = runIndex b → runCount a = 15

/-- The active run's index is that of the first byte to come. -/
theorem RunScan.runIndex_head (scan : RunScan idx c run) :
    ∀ b ∈ (rleFrom false idx (some c) run).head?, runIndex b = c.toNat := by
  induction scan with
  | last c => nofun
  | flush capped ends next ih =>
    rw [rleFrom_flush false ends]
    simp
  | extend below more next ih => rwa [rleFrom_extend false below more]

/-- A run is flushed because the index changes, at the cap, or as the last byte. -/
theorem RunScan.isChain_rleFrom (scan : RunScan idx c run) :
    (rleFrom false idx (some c) run).IsChain SameIndexAtCap := by
  induction scan with
  | last c => exact .nil
  | @flush x c xs run capped ends next ih =>
    rw [rleFrom_flush false ends, List.isChain_cons]
    refine ⟨fun b hb same => ?_, ih⟩
    rw [runIndex_runByte, next.runIndex_head b hb] at same
    rcases ends with differ | cap | rfl
    · exact absurd (BitVec.eq_of_toNat_eq same.symm) differ
    · rw [runCount_runByte, le_antisymm capped cap]
      rfl
    · cases hb
  | extend below more next ih => rwa [rleFrom_extend false below more]

end

/-! ### The closed function -/

section
variable (idx : List Nibble)

theorem runScan_start (x : Nibble) : RunScan idx x 0 := runScan_of_le (Nat.zero_le 15) fun _ => rfl

theorem rle_true (pixels : idx ≠ []) : rle idx true = rle idx false ++ [runByte (idx.getLast pixels) 0#4] := by
  cases idx with
  | nil => exact absurd rfl pixels
  | cons x xs =>
    rw [List.getLast_eq_getLastD]
    exact (runScan_start xs x).rleFrom_true

theorem expandRuns_rle_false : expandRuns (rle idx false) = idx.dropLast := by
  cases idx with
  | nil => rfl
  | cons x xs => exact (runScan_start xs x).expandRuns_rleFrom

theorem expandRuns_rle_true : expandRuns (rle idx true) = idx := by
  by_cases pixels : idx = []
  · rw [pixels]
    rfl
  · rw [rle_true idx pixels, expandRuns_append, expandRuns_rle_false, expandRuns_runByte]
    exact List.dropLast_append_getLast pixels

theorem rle_false_isChain : (rle idx false).IsChain SameIndexAtCap := by
  cases idx with
  | nil => exact .nil
  | cons x xs => exact (runScan_start xs x).isChain_rleFrom

theorem rle_false_length_bounds :
    (idx.length - 1 + 15) / 16 ≤ (rle idx false).length ∧ (rle idx false).length ≤ idx.length - 1 := by
  obtain ⟨lower, upper⟩ := expandRuns_length_bounds (rle idx false)
  rw [expandRuns_rle_false, List.length_dropLast] at lower upper
  omega

end

theorem isChain_getElem? {R : Byte → Byte → Prop} {bs : List Byte} (chain : bs.IsChain R) {i : Nat} {a b : Byte}
    (ha : bs[i]? = some a) (hb : bs[i + 1]? = some b) : R a b := by
  obtain ⟨-, rfl⟩ := List.getElem?_eq_some_iff.1 ha
  obtain ⟨inside, rfl⟩ := List.getElem?_eq_some_iff.1 hb
  exact List.isChain_iff_getElem.1 chain i inside

/-- The corrected variant's final byte can have the index of a byte below the cap, for it is no part of the default
variant (R74(c)). -/
theorem rle_neighbours {idx : List Nibble} {fix : Bool} {i : Nat} {a b : Byte} (ha : (rle idx fix)[i]? = some a)
    (hb : (rle idx fix)[i + 1]? = some b) (same : runIndex a = runIndex b) :
    runCount a = 15 ∨ (fix = true ∧ i + 2 = (rle idx fix).length) := by
  cases fix with
  | false => exact .inl (isChain_getElem? (rle_false_isChain idx) ha hb same)
  | true =>
    by_cases pixels : idx = []
    · subst pixels
      cases ha
    · rw [rle_true idx pixels] at ha hb ⊢
      by_cases inner : i + 1 < (rle idx false).length
      · rw [List.getElem?_append_left (Nat.lt_of_succ_lt inner)] at ha
        rw [List.getElem?_append_left inner] at hb
        exact .inl (isChain_getElem? (rle_false_isChain idx) ha hb same)
      · have inside := (List.getElem?_eq_some_iff.1 hb).1
        rw [List.length_append, List.length_singleton] at inside ⊢
        exact .inr ⟨rfl, by omega⟩

/-- Settles O26: the sums are the lengths of the expansions. -/
theorem runBytesStandForAllButTheLastPixel : Obligations.RunBytesStandForAllButTheLastPixel := by
  refine fun idx => ⟨expandRuns_rle_false idx, expandRuns_rle_true idx, ?_, ?_, fun _ => rle_false_length_bounds idx,
    fun _ _ _ _ => rle_neighbours⟩
  · exact (expandRuns_length _).symm.trans (by rw [expandRuns_rle_false, List.length_dropLast])
  · exact (expandRuns_length _).symm.trans (by rw [expandRuns_rle_true])

end Sys2Proof.Machine
end

section
/-! PROOFS. The Bit Packer as the machine runs it (R75 to R77). `BIN.STEP` branches as `packBits` does
(`exec_binStep`, `packBits_pixelsFrom`), so the rest of a pass appends what `packBits` gives for the pixels ahead
(`repeatExec_binStep`); that it is the payload of R77 is `packBits_eq_binaryPayload`. -/

namespace Sys2Proof.Machine

/-! ### `BIN.CLR` -/

/-- Settles O27: the operation and the accepted START both clear the accumulator. -/
theorem binClrEmptiesTheAccumulator : Obligations.BinClrEmptiesTheAccumulator :=
  ⟨rfl, fun _ => rfl, fun m _ accepts => ⟨_, exec_commandOf_accepts m accepts, rfl, rfl⟩⟩

/-! ### The bytes of the accumulator -/

theorem shiftInBit_toNat {acc : Byte} (room : acc.toNat < 2 ^ 7) (b : Bool) :
    (shiftInBit acc b).toNat = 2 * acc.toNat + b.toNat := by
  have bit := b.toNat_le
  rw [shiftInBit_eq_add, BitVec.toNat_add, BitVec.toNat_shiftLeft, Nat.shiftLeft_eq, BitVec.toNat_ofNat]
  omega

/-- Moving the `n` collected bits to the top of the byte drops none of them (R48). -/
theorem packedByte_toNat {acc : Byte} {n : Nat} (collected : acc.toNat < 2 ^ n) (inByte : n ≤ 8) :
    (packedByte acc n).toNat = acc.toNat * 2 ^ (8 - n) := by
  have fits : acc.toNat * 2 ^ (8 - n) < 2 ^ 8 := by
    calc acc.toNat * 2 ^ (8 - n) < 2 ^ n * 2 ^ (8 - n) := Nat.mul_lt_mul_of_pos_right collected (Nat.two_pow_pos _)
      _ = 2 ^ 8 := pow_mul_pow_sub 2 inByte
  rw [packedByte, BitVec.toNat_shiftLeft, Nat.shiftLeft_eq, Nat.mod_eq_of_lt fits]

theorem thresholdBit_toNat (p : Pixel) : (thresholdBit p).toNat = if 127 < (pixR p).toNat then 1 else 0 := by
  rw [thresholdBit, Bool.toNat, Bool.cond_decide]

/-! ### `BIN.STEP` -/

/-- `ACC` with the threshold bit of the pixel at `K` shifted in. -/
def State.accWithPixel (s : State) : Byte := shiftInBit s.acc (thresholdBit (imgWord s s.k))

/-- `BIN.STEP` where it does not fault, with the flush condition of R76. -/
theorem exec_binStep {s : State} (hk : s.k < s.n) (inMemory : s.k < s.cfg.imgWords) (bits : s.nbits < 8) :
    exec .binStep s = .next
      (if s.nbits + 1 = 8 ∨ s.k + 1 = s.n then
        { s with out := s.out ++ [packedByte s.accWithPixel (s.nbits + 1)], acc := 0#8, nbits := 0, k := s.k + 1 }
      else { s with acc := s.accWithPixel, nbits := s.nbits + 1, k := s.k + 1 }) := by
  change execBinStep s = _
  rw [execBinStep, memRead_ok hk inMemory, withRead_ok, if_neg (Nat.not_le.2 bits), apply_ite Host.Outcome.next]
  rfl

/-- Settles O28: the branches of the statement are those of the flush condition; under R21 no bit of the byte is lost. -/
theorem binStepCollectsOrFlushes : Obligations.BinStepCollectsOrFlushes := by
  refine ⟨rfl, fun s hk inMemory bits collected bit isBit => ?_⟩
  have value : s.accWithPixel.toNat = 2 * s.acc.toNat + bit := by
    have room : s.acc.toNat < 2 ^ 7 := collected.trans_le (Nat.pow_le_pow_right Nat.two_pos bits)
    rw [State.accWithPixel, shiftInBit_toNat room, thresholdBit_toNat, isBit]
  rw [exec_binStep hk inMemory (Nat.lt_succ_of_le bits)]
  refine ⟨fun flush => ⟨packedByte s.accWithPixel (s.nbits + 1), ?_, ?_⟩,
    fun notFull notLast => ⟨s.accWithPixel, value, ?_⟩⟩
  · have collected' : s.accWithPixel.toNat < 2 ^ (s.nbits + 1) := shiftInBit_toNat_lt collected _
    rw [packedByte_toNat collected' (Nat.succ_le_succ bits), value]
  · have flush : s.nbits + 1 = 8 ∨ s.k + 1 = s.n := flush.imp_right (by omega)
    rw [if_pos flush]
  · have notLast : s.k + 1 ≠ s.n := by omega
    rw [if_neg (not_or.2 ⟨notFull, notLast⟩)]

/-! ### The bit-packing pass -/

/-- The bytes still to come, by the pixel at `K`. -/
theorem packBits_pixelsFrom {s : State} (hk : s.k < s.n) :
    packBits s.acc s.nbits (s.pixelsFrom s.k) =
      if s.nbits + 1 = 8 ∨ s.k + 1 = s.n then
        packedByte s.accWithPixel (s.nbits + 1) :: packBits 0#8 0 (s.pixelsFrom (s.k + 1))
      else packBits s.accWithPixel (s.nbits + 1) (s.pixelsFrom (s.k + 1)) := by
  rw [pixelsFrom_of_lt hk, packBits]
  exact if_congr (or_congr_right (pixelsFrom_eq_nil hk)) rfl rfl

/-- The rest of a pass packs the rest of the pixels behind the bits already collected; where no pixel is left, the last one
has emptied the accumulator. -/
theorem repeatExec_binStep {steps : Nat} {s : State} (rest : s.k + steps = s.n) (fits : s.n ≤ s.cfg.imgWords)
    (bits : s.nbits < 8) (emptied : steps = 0 → s.acc = 0#8 ∧ s.nbits = 0) :
    repeatExec .binStep steps s = .next
      { s with
        out := s.out ++ packBits s.acc s.nbits (s.pixelsFrom s.k), acc := 0#8, nbits := 0, k := s.k + steps } := by
  induction steps generalizing s with
  | zero =>
    obtain ⟨acc, nbits⟩ := emptied rfl
    have atEnd : s.k = s.n := rest
    rw [(pixelsFrom_eq_nil atEnd.le).2 atEnd, packBits, repeatExec, List.append_nil, Nat.add_zero, ← acc, ← nbits]
  | succ steps ih =>
    have hk : s.k < s.n := by omega
    have rest' : s.k + 1 + steps = s.n := by omega
    rw [repeatExec, exec_binStep hk (hk.trans_le fits) bits, andThen_next, packBits_pixelsFrom hk]
    by_cases flush : s.nbits + 1 = 8 ∨ s.k + 1 = s.n
    · have pass := ih (s := { s with
        out := s.out ++ [packedByte s.accWithPixel (s.nbits + 1)], acc := 0#8, nbits := 0, k := s.k + 1 })
        rest' fits (Nat.zero_lt_succ 7) fun _ => ⟨rfl, rfl⟩
      rw [if_pos flush, if_pos flush, pass, Nat.add_right_comm, List.append_assoc]
      rfl
    · obtain ⟨notFull, notLast⟩ := not_or.1 flush
      have room : s.nbits + 1 < 8 := by omega
      have pass := ih (s := { s with acc := s.accWithPixel, nbits := s.nbits + 1, k := s.k + 1 }) rest' fits room
        fun noSteps => absurd (by rwa [noSteps] at rest') notLast
      rw [if_neg flush, if_neg flush, pass, Nat.add_right_comm]
      rfl

/-- Settles O29: a pass from the first pixel and an empty accumulator packs all pixels. -/
theorem bitPackingPassAppendsThePackedBytes : Obligations.BitPackingPassAppendsThePackedBytes := by
  intro s start acc nbits fits
  rw [repeatExec_binStep (by omega) fits (by omega) fun _ => ⟨acc, nbits⟩, acc, nbits, packBits_eq_binaryPayload,
    State.pixelsFrom, start, List.drop_zero, Nat.zero_add]

end Sys2Proof.Machine
end

section
/-! PROOFS. The Raw Emitter (R78, R79). `RAW.STEP` emits the pixel at `K` (`exec_rawStep`), so after `steps` of a pass
the first `steps` pixels are emitted (`repeatExec_rawStep`); the pass of R79 is that of `N` steps. -/

namespace Sys2Proof.Machine

/-- `RAW.STEP` where it does not fault. -/
theorem exec_rawStep {s : State} (hk : s.k < s.n) (inMemory : s.k < s.cfg.imgWords) :
    exec .rawStep s = .next { s with out := s.out ++ [quantize (imgWord s s.k)], k := s.k + 1 } := by
  change execRawStep s = _
  rw [execRawStep, memRead_ok hk inMemory, withRead_ok]
  rfl

/-- Settles O30: the byte emitted is `quantize` of the pixel, which is `quantizeRGB` of its channels. -/
theorem rawStepEmitsTheQuantizedPixel : Obligations.RawStepEmitsTheQuantizedPixel :=
  ⟨rfl, fun _ => exec_rawStep⟩

theorem rawPayload_scanPixels_succ (s : State) (n : Nat) :
    rawPayload (scanPixels s (n + 1)) = rawPayload (scanPixels s n) ++ [quantize (imgWord s n)] := by
  simp [rawPayload, scanPixels, List.range_succ]

/-- A part of the pass emits the pixels before the one it stops at. -/
theorem repeatExec_rawStep {steps : Nat} {s : State} (start : s.k = 0) (fits : s.n ≤ s.cfg.imgWords)
    (inside : steps ≤ s.n) :
    repeatExec .rawStep steps s = .next { s with out := s.out ++ rawPayload (scanPixels s steps), k := steps } := by
  induction steps with
  | zero =>
    have noBytes : s.out ++ rawPayload (scanPixels s 0) = s.out := List.append_nil _
    rw [repeatExec, noBytes, ← start]
  | succ steps ih =>
    rw [repeatExec_succ_last, ih (Nat.le_of_succ_le inside), andThen_next,
      exec_rawStep (by exact inside) (by exact inside.trans fits), rawPayload_scanPixels_succ, ← List.append_assoc]
    rfl

/-- Settles O31: the whole pass is the part of `N` steps. -/
theorem rawPassAppendsEveryPixel : Obligations.RawPassAppendsEveryPixel :=
  fun _ start fits => repeatExec_rawStep start fits le_rfl

end Sys2Proof.Machine
end

section
/-! PROOFS. What a conversion computes (R84 to R86, R89, R113): it runs until no step is left, and then its forecast,
which is the stream of the launch, is all in `OUT`. Then the length of that stream in each mode (R90). -/

namespace Sys2Proof.Machine

/-! ### The stream of a conversion -/

theorem State.Converting.status_of_done {s : State} (conv : s.Converting) (finished : s.phase = .done) :
    s.status = { busy := false, done := true, err := false, ecode := 0#3 } :=
  conv.status.trans (if_pos finished)

/-- An accepted command computes the stream of its launch; only compressed mode needs counters that hold `N`. -/
theorem conversion_computes_launchStream {m : Mode} {s : State} (alone : s.EngineAlone) (accepts : s.Accepts)
    (room : m = .compressed → s.width.toNat * s.height.toNat < 2 ^ s.cfg.cntBits) :
    ∃ s1 t, exec (commandOf m) s = .next s1 ∧
      runSteps (conversionSteps m (s.width.toNat * s.height.toNat)) s1 = .next t ∧
      t.phase = .done ∧ t.status = { busy := false, done := true, err := false, ecode := 0#3 } ∧
      t.out = launchStream s m := by
  have conv := acceptStart_converting alone accepts room
  obtain ⟨t, run, conv_t, count, forecast⟩ := conv.run le_rfl
  have finished : t.phase = .done := conv_t.stepsLeft_eq_zero_iff.1 (by omega)
  rw [acceptStart_stepsLeft] at run
  rw [forecast_done finished, acceptStart_forecast] at forecast
  exact ⟨_, t, exec_commandOf_accepts m accepts, run, finished, conv_t.status_of_done finished, forecast⟩

/-- Settles O50: the conversion of normal mode. -/
theorem normalConversionComputesEncode : Obligations.NormalConversionComputesEncode :=
  fun _ alone accepts => conversion_computes_launchStream (m := .normal) alone accepts nofun

/-- Settles O51: the conversion of binary mode. -/
theorem binaryConversionComputesEncode : Obligations.BinaryConversionComputesEncode :=
  fun _ alone accepts => conversion_computes_launchStream (m := .binary) alone accepts nofun

/-- Settles O52: the conversion of compressed mode, whose counters hold `N` where the dimensions fit the build. -/
theorem compressedConversionComputesEncode : Obligations.CompressedConversionComputesEncode :=
  fun _ alone accepts fit => conversion_computes_launchStream (m := .compressed) alone accepts fun _ => fit.room

/-! ### The length of the stream -/

theorem rawPayload_length (px : List Pixel) : (rawPayload px).length = px.length := List.length_map _

theorem binaryPayload_length (px : List Pixel) : (binaryPayload px).length = (px.length + 7) / 8 := by
  rw [binaryPayload, List.length_map, List.length_range]

theorem selectPalette_length (h : Byte → Nat) : (selectPalette h).length = 16 := by
  rw [selectPalette_eq_take, List.length_take, ranking_length]
  rfl

theorem matchIndices_length (px : List Pixel) (pal : List Byte) : (matchIndices px pal).length = px.length :=
  List.length_map _

/-- The corrected variant has one byte more than the default one, where there is a pixel (R72, R90). -/
theorem rle_length (idx : List Nibble) (fix : Bool) :
    (rle idx fix).length = (rle idx false).length + if fix = true ∧ idx ≠ [] then 1 else 0 := by
  cases fix with
  | false => simp
  | true =>
    by_cases pixels : idx = []
    · subst pixels
      rfl
    · rw [rle_true idx pixels, List.length_append, List.length_singleton, if_pos ⟨rfl, pixels⟩]

/-- Header and palette are 18 bytes. -/
theorem encodeStream_compressed_length (fix : Bool) (w h : Nat) (px : List Pixel) :
    (encodeStream fix w h px .compressed).length =
      18 + (rle (matchIndices px (selectPalette (buildHistogram px))) fix).length := by
  simp only [encodeStream, List.length_append, selectPalette_length, List.length_cons, List.length_nil]
  omega

/-- Settles O55: the length of each payload behind the header; `r` counts the bytes of the default variant. -/
theorem streamLengths : Obligations.StreamLengths := by
  intro w h px fix
  refine ⟨?_, ?_, (rle (matchIndices px (selectPalette (buildHistogram px))) false).length, ?_, ?_⟩
  · rw [encodeStream, List.length_append, rawPayload_length]
    rfl
  · rw [encodeStream, List.length_append, binaryPayload_length]
    rfl
  · have pixels : matchIndices px (selectPalette (buildHistogram px)) ≠ [] ↔ px ≠ [] := not_congr List.map_eq_nil_iff
    rw [encodeStream_compressed_length, rle_length, Nat.add_assoc]
    simp only [pixels]
  · have bounds := rle_false_length_bounds (matchIndices px (selectPalette (buildHistogram px)))
    rw [matchIndices_length] at bounds
    omega

end Sys2Proof.Machine
end

section
/-! PROOFS. Mode Dispatch: `HDR.W`, `HDR.H`, `PAL.OUT` (R81 to R83), and the sequencer's table (R87, R88) with one
equation of `engineStep` per row; under the invariant the operation of the enabled row answers (R91), and so does every
host move the interface has. -/

namespace Sys2Proof.Machine

/-! ### The header and the palette block -/

theorem headerByte_toNat (d : Dim) : (headerByte d).toNat = d.toNat % 256 := by
  simp [headerByte]

/-- Settles O32: the header byte of the latched width. -/
theorem hdrWEmitsTheTruncatedWidth : Obligations.HdrWEmitsTheTruncatedWidth :=
  ⟨rfl, fun s => ⟨headerByte s.lw, headerByte_toNat s.lw, rfl⟩⟩

/-- Settles O33: the header byte of the latched height. -/
theorem hdrHEmitsTheTruncatedHeight : Obligations.HdrHEmitsTheTruncatedHeight :=
  ⟨rfl, fun s => ⟨headerByte s.lh, headerByte_toNat s.lh, rfl⟩⟩

theorem exec_palOut_of_unfilled {s : State} (hj : s.j < 16) (unfilled : s.pal[s.j].palv = false) :
    exec .palOut s = .fault .unsetPaletteSlot := by
  change execPalOut s = _
  rw [execPalOut, dif_pos hj, if_neg (ne_true_of_eq_false unfilled)]

/-- The rest of the palette block is the rest of the colours. -/
theorem repeatExec_palOut {steps : Nat} {s : State} (rest : s.j + steps = 16)
    (filled : ∀ i : Fin 16, s.pal[i].palv = true) :
    repeatExec .palOut steps s = .next { s with out := s.out ++ (paletteBytes s.pal).drop s.j, j := 16 } := by
  induction steps generalizing s with
  | zero =>
    have atEnd : s.j = 16 := rest
    rw [atEnd, paletteBytes_drop_all, List.append_nil, ← atEnd]
    rfl
  | succ steps ih =>
    have hj : s.j < 16 := by omega
    have emitted : exec .palOut s = .next { s with out := s.out ++ [s.pal[s.j].palc], j := s.j + 1 } :=
      execPalOut_next hj (filled ⟨s.j, hj⟩)
    have pass := ih (s := { s with out := s.out ++ [s.pal[s.j].palc], j := s.j + 1 })
      ((Nat.add_right_comm s.j 1 steps).trans rest) filled
    rw [repeatExec, emitted, andThen_next, pass, paletteBytes_drop hj, List.append_assoc]
    rfl

/-- Settles O34: one colour by whether its slot is filled, and the whole block from the first slot. -/
theorem palOutEmitsOneColour : Obligations.PalOutEmitsOneColour := by
  refine ⟨rfl, fun s start filled => ?_, fun s hj => ⟨execPalOut_next hj, exec_palOut_of_unfilled hj⟩⟩
  rw [repeatExec_palOut (by omega) filled, start, List.drop_zero, paletteBytes]

/-! ### The rows of the sequencer's table -/

section
variable {s : State}

theorem engineStep_of_enabled {r : SeqRow} (row : seqRow s = .ok (some r)) :
    engineStep s = andThen (runOp r.op s) fun t => .next (applyRow r t) := by
  simp only [engineStep, row]

/-- A row that stays in its phase is its unit operation, whether that answers or stops. -/
theorem engineStep_of_stay {i : Instr} {p : Phase} (row : seqRow s = .ok (some ⟨some i, none, p, false⟩))
    (hp : s.phase = p) : engineStep s = exec i s := by
  cases op : exec i s with
  | next t => exact engineStep_of_op row op ((exec_unitFrame op (seqRow_op_isUnit row rfl)).phase.trans hp)
  | fault r | refused r => rw [engineStep_of_enabled row, runOp, op]; rfl

theorem engineStep_stopped (hp : s.phase = .idle ∨ s.phase = .done) : engineStep s = .next s := by
  rcases hp with hp | hp <;> simp [engineStep, seqRow, hp]

theorem engineStep_hdr0 (hp : s.phase = .hdr0) :
    engineStep s = andThen (exec .hdrW s) fun t => .next { t with phase := .hdr1 } :=
  engineStep_of_enabled (r := ⟨some .hdrW, none, .hdr1, false⟩) (by simp [seqRow, hp])

theorem engineStep_hdr1_compressed (hp : s.phase = .hdr1) (hl : s.lmode = 2#2) :
    engineStep s = andThen (exec .hdrH s) fun t => .next { t with k := 0, phase := .hist } :=
  engineStep_of_enabled (r := ⟨some .hdrH, some .k, .hist, false⟩) (by simp [seqRow, hp, hl, modeOf])

theorem engineStep_hdr1_uncompressed (hp : s.phase = .hdr1) (hl : s.lmode = 0#2 ∨ s.lmode = 1#2) :
    engineStep s = andThen (exec .hdrH s) fun t => .next { t with k := 0, phase := .scan } :=
  engineStep_of_enabled (r := ⟨some .hdrH, some .k, .scan, false⟩) (by
    rcases hl with hl | hl <;> simp [seqRow, hp, hl, modeOf])

theorem engineStep_hist (hp : s.phase = .hist) (hk : s.k < s.n) : engineStep s = exec .histAcc s :=
  engineStep_of_stay (by simp [seqRow, hp, hk]) hp

theorem engineStep_hist_end (hp : s.phase = .hist) (hk : s.k = s.n) :
    engineStep s = .next { s with c := 0, phase := .psel } :=
  engineStep_of_enabled (r := ⟨none, some .c, .psel, false⟩) (by simp [seqRow, hp, hk])

theorem engineStep_psel (hp : s.phase = .psel) (hc : s.c < 256) : engineStep s = exec .pselIns s :=
  engineStep_of_stay (by simp [seqRow, hp, hc]) hp

theorem engineStep_psel_end (hp : s.phase = .psel) (hc : s.c = 256) :
    engineStep s = .next { s with j := 0, phase := .palout } :=
  engineStep_of_enabled (r := ⟨none, some .j, .palout, false⟩) (by simp [seqRow, hp, hc])

theorem engineStep_palout (hp : s.phase = .palout) (hj : s.j < 16) : engineStep s = exec .palOut s :=
  engineStep_of_stay (by simp [seqRow, hp, hj]) hp

theorem engineStep_palout_end (hp : s.phase = .palout) (hj : s.j = 16) :
    engineStep s = .next { s with k := 0, phase := .scan } :=
  engineStep_of_enabled (r := ⟨none, some .k, .scan, false⟩) (by simp [seqRow, hp, hj])

theorem engineStep_scan {m : Mode} (hp : s.phase = .scan) (hk : s.k < s.n) (mode : modeOf s.lmode = some m) :
    engineStep s = exec (scanOp m) s :=
  engineStep_of_stay (by simp [seqRow, hp, hk, mode]) hp

theorem engineStep_scan_end_uncompressed (hp : s.phase = .scan) (hk : s.k = s.n)
    (hl : s.lmode = 0#2 ∨ s.lmode = 1#2) :
    engineStep s = .next { s with status := { s.status with busy := false, done := true }, phase := .done } :=
  engineStep_of_enabled (r := ⟨none, none, .done, true⟩) (by
    rcases hl with hl | hl <;> simp [seqRow, hp, hk, hl, modeOf])

theorem engineStep_scan_end_compressed (hp : s.phase = .scan) (hk : s.k = s.n) (hl : s.lmode = 2#2) :
    engineStep s = andThen (exec .rleEnd s) fun t =>
      .next { t with status := { t.status with busy := false, done := true }, phase := .done } :=
  engineStep_of_enabled (r := ⟨some .rleEnd, none, .done, true⟩) (by simp [seqRow, hp, hk, hl, modeOf])

/-- The mode of `LMODE` = 3 has no row in `SCAN` (R102(e)). -/
theorem engineStep_scan_illegal (hp : s.phase = .scan) (hl : s.lmode = 3#2) : engineStep s = .fault .illegalMode := by
  simp [engineStep, seqRow, hp, hl, modeOf]

end

/-- Settles O6: with nothing pending the step is the engine's, which is that of the enabled row. -/
theorem sequencerPerformsItsTable : Obligations.SequencerPerformsItsTable := by
  intro s alone
  rw [step_engine alone.1 alone.2]
  exact ⟨engineStep_stopped, engineStep_hdr0, engineStep_hdr1_compressed, engineStep_hdr1_uncompressed,
    engineStep_hist, engineStep_hist_end, engineStep_psel, engineStep_psel_end, engineStep_palout,
    engineStep_palout_end, fun hp hk hl => engineStep_scan (m := .normal) hp hk (by rw [hl]; rfl),
    fun hp hk hl => engineStep_scan (m := .binary) hp hk (by rw [hl]; rfl),
    fun hp hk hl => engineStep_scan (m := .compressed) hp hk (by rw [hl]; rfl),
    engineStep_scan_end_uncompressed, engineStep_scan_end_compressed⟩

/-! ### Progress under the invariant -/

section
variable {s : State} (inv : s.Inv)
include inv

/-- No counter can reach its limit, for the launch has fewer pixels than that (R17). -/
theorem State.Inv.room : s.n < 2 ^ s.cfg.cntBits := by
  rw [inv.nIsProduct]
  exact State.DimsFit.room (s := { s with width := s.lw, height := s.lh }) ⟨inv.buildOk, inv.lwFits, inv.lhFits⟩

theorem State.Inv.hist_answers (hp : s.phase = .hist) : ∃ t, engineStep s = .next t := by
  rcases inv.kBound.lt_or_eq with hk | hk
  · have below (q : Byte) : histGet s.hist q < s.n := (inv.histBound hp q).trans_lt hk
    have counted := execHistAcc_next hk inv.imageFits ((Nat.succ_le_of_lt (below _)).trans_lt inv.room)
    exact ⟨_, (engineStep_hist hp hk).trans counted⟩
  · exact ⟨_, engineStep_hist_end hp hk⟩

theorem State.Inv.psel_answers (hp : s.phase = .psel) : ∃ t, engineStep s = .next t := by
  rcases inv.cBound.lt_or_eq with hc | hc
  · exact ⟨_, (engineStep_psel hp hc).trans (execPselIns_next hc)⟩
  · exact ⟨_, engineStep_psel_end hp hc⟩

theorem State.Inv.palout_answers (hp : s.phase = .palout) : ∃ t, engineStep s = .next t := by
  rcases inv.jBound.lt_or_eq with hj | hj
  · exact ⟨_, (engineStep_palout hp hj).trans (execPalOut_next hj (inv.palFilled (.inl hp) ⟨s.j, hj⟩))⟩
  · exact ⟨_, engineStep_palout_end hp hj⟩

/-- The unit operation of a scan step, in the mode it belongs to. -/
theorem State.Inv.scanOp_answers {m : Mode} (hp : s.phase = .scan) (hk : s.k < s.n) (mode : modeOf s.lmode = some m) :
    ∃ t, exec (scanOp m) s = .next t := by
  rcases modeOf_eq_some mode with ⟨rfl, -⟩ | ⟨rfl, -⟩ | ⟨rfl, hl⟩
  · exact ⟨_, execRawStep_next hk inv.imageFits⟩
  · exact execBinStep_answers hk inv.imageFits (Nat.lt_succ_of_le inv.bitsBound)
  · exact execRleStep_answers hk inv.imageFits (inv.palFilled (.inr ⟨hp, hl⟩))

theorem State.Inv.scan_answers (hp : s.phase = .scan) : ∃ t, engineStep s = .next t := by
  rcases inv.kBound.lt_or_eq with hk | hk
  · obtain ⟨m, mode⟩ : ∃ m, modeOf s.lmode = some m := by
      rcases mode_cases inv.legalMode with (hl | hl) | hl <;> exact ⟨_, by rw [hl]; rfl⟩
    rw [engineStep_scan hp hk mode]
    exact inv.scanOp_answers hp hk mode
  · rcases mode_cases inv.legalMode with hl | hl
    · exact ⟨_, engineStep_scan_end_uncompressed hp hk hl⟩
    · rw [engineStep_scan_end_compressed hp hk hl, exec_rleEnd]
      exact ⟨_, rfl⟩

/-- No engine step fails, in any phase (R91, R102). -/
theorem State.Inv.engineStep_answers : ∃ t, engineStep s = .next t := by
  cases hp : s.phase with
  | idle => exact ⟨s, engineStep_stopped (.inl hp)⟩
  | hdr0 => exact ⟨_, engineStep_hdr0 hp⟩
  | hdr1 =>
    rcases mode_cases inv.legalMode with hl | hl
    · exact ⟨_, engineStep_hdr1_uncompressed hp hl⟩
    · exact ⟨_, engineStep_hdr1_compressed hp hl⟩
  | hist => exact inv.hist_answers hp
  | psel => exact inv.psel_answers hp
  | palout => exact inv.palout_answers hp
  | scan => exact inv.scan_answers hp
  | done => exact ⟨s, engineStep_stopped (.inr hp)⟩

theorem State.Inv.hostWait_answers : ∃ t, hostWait s = .next t := by
  by_cases ended : s.status.done = true ∨ s.status.err = true
  · exact ⟨s, hostWait_of_ended ended⟩
  · have queued : { s with inbox := .wait :: s.inbox }.Inv := { inv with }
    rw [hostWait, if_neg ended]
    exact queued.engineStep_answers

/-- A host move answers, or the interface does not have it. -/
theorem State.Inv.hostMove_answers (m : HostMove) : (∃ t, hostMove m s = .next t) ∨ s.OutsideMove m := by
  cases m with
  | wr reg v =>
    match reg with
    | 0 => exact .inl ⟨_, csrWrite_cmd v s⟩
    | 1 | 2 | 3 => exact .inl ⟨_, rfl⟩
    | reg + 4 => exact .inr (Nat.le_add_left 4 reg)
  | rd reg =>
    match reg with
    | 0 | 1 | 2 | 3 => exact .inl ⟨_, rfl⟩
    | reg + 4 => exact .inr (Nat.le_add_left 4 reg)
  | imgWr k w =>
    cases busy : s.status.busy with
    | true => exact .inr (.inl busy)
    | false => exact (Nat.lt_or_ge k s.cfg.imgWords).imp (fun hk => ⟨_, imgHostWrite_next w busy hk⟩) .inr
  | imgRd k => exact (Nat.lt_or_ge k s.cfg.imgWords).imp_left fun hk => ⟨_, imgHostRead_next hk⟩
  | outRd i => exact (Nat.lt_or_ge i s.out.length).imp_left fun hi => ⟨_, outHostRead_next hi⟩
  | readout | reset => exact .inl ⟨_, rfl⟩
  | wait => exact .inl inv.hostWait_answers
  | tick => exact .inl inv.engineStep_answers

end

/-- Settles O49: with the bench empty the step is the engine's or the oldest host move's. -/
theorem noStepOfTheEngineFails : Obligations.NoStepOfTheEngineFails := by
  intro s inv
  cases inbox : s.inbox with
  | nil =>
    rw [step_engine inv.benchEmpty inbox]
    exact .inl inv.engineStep_answers
  | cons m rest =>
    have taken : { s with inbox := rest }.Inv := { inv with }
    rw [step_host inv.benchEmpty inbox]
    exact (taken.hostMove_answers m).imp_right fun outside => ⟨m, rest, rfl, outside⟩

end Sys2Proof.Machine
end

section
/-! PROOFS. Exceptions and reset (R93 to R104): what START does with a word it does not accept, what clears `ERR`, and
the conditions that fault under a name of their own. -/

namespace Sys2Proof.Machine

/-! ### Refusals -/

section
variable {s : State} {c : Byte}

theorem start_of_ignored (c : Byte) (ignored : s.status.err = true ∨ s.status.busy = true) : start c s = s := by
  rcases ignored with h | h <;> simp [start, h]

/-- The words START takes for commands are those of the three commands (R43). -/
theorem isCommand_iff : isCommand c = true ↔ c = 0x00#8 ∨ c = 0x01#8 ∨ c = 0x02#8 := by
  constructor
  · intro command
    obtain ⟨i, decodes⟩ := decodeCmd_of_wf command
    exact word_of_encode_eq_cmd8 (decodeCmd_eq_ok decodes)
  · rintro (rfl | rfl | rfl) <;> rfl

theorem dimsTooLarge_iff :
    dimsTooLarge s = true ↔ s.cfg.strictDims = true ∧ (256 ≤ s.width.toNat ∨ 256 ≤ s.height.toNat) := by
  simp [dimsTooLarge]

section
variable (noError : s.status.err = false) (idle : s.status.busy = false)
include noError idle

theorem start_of_reserved (reserved : isCommand c ≠ true) : start c s = takeRefusal ecodeReservedCmd s := by
  simp [start, noError, idle, reserved]

theorem start_of_large (command : isCommand c = true) (large : dimsTooLarge s = true) :
    start c s = takeRefusal ecodeValueTooLarge s := by
  simp [start, noError, idle, command, large]

theorem start_of_overflow (command : isCommand c = true) (allowed : dimsTooLarge s ≠ true)
    (overflow : s.cfg.imgWords < s.width.toNat * s.height.toNat) :
    start c s = takeRefusal ecodeInvalidImageGeometry s := by
  simp [start, noError, idle, command, allowed, overflow]

end

end

/-- Settles O36: the write is START, which takes the first check that applies. -/
theorem refusalRecordsTheFirstCause : Obligations.RefusalRecordsTheFirstCause := by
  intro s c
  simp only [hostMove_wr_cmd, ← isCommand_iff, ← dimsTooLarge_iff]
  refine ⟨fun ignored => congrArg _ (start_of_ignored c ignored), fun noError idle => ⟨fun others => ?_,
    fun command => ⟨fun large => ?_, fun allowed overflow => ?_⟩⟩⟩
  · have reserved : isCommand c ≠ true := by simpa [isCommand_iff] using others
    exact congrArg _ (start_of_reserved noError idle reserved)
  · exact congrArg _ (start_of_large noError idle command large)
  · exact congrArg _ (start_of_overflow noError idle command allowed overflow)

/-! ### `ERR` is sticky -/

/-- The error and its cause are those of the state before (R99). -/
structure KeepsError (s t : State) : Prop where
  err : t.status.err = s.status.err := by rfl
  ecode : t.status.ecode = s.status.ecode := by rfl

theorem UnitFrame.keepsError {s t : State} (frame : UnitFrame s t) : KeepsError s t where
  err := congrArg Status.err frame.status
  ecode := congrArg Status.ecode frame.status

/-- Completion clears `BUSY` and sets `DONE` only (R88). -/
theorem applyRow_keepsError (r : SeqRow) (s : State) : KeepsError s (applyRow r s) where
  err := by rw [applyRow_status, apply_ite Status.err, completed_err, ite_self]
  ecode := by rw [applyRow_status, apply_ite Status.ecode, completed_ecode, ite_self]

section
variable {s t : State}

theorem engineStep_keepsError (h : engineStep s = .next t) : KeepsError s t := by
  rcases engineStep_eq_next h with ⟨-, rfl⟩ | ⟨r, u, row, op, rfl⟩
  · exact {}
  · have kept : KeepsError s u := by
      cases hop : r.op with
      | none => rw [hop] at op; cases op; exact {}
      | some i => rw [hop] at op; exact (exec_unitFrame op (seqRow_op_isUnit row hop)).keepsError
    have moved := applyRow_keepsError r u
    exact ⟨moved.err.trans kept.err, moved.ecode.trans kept.ecode⟩

variable (err : s.status.err = true)
include err

theorem start_of_error (c : Byte) : start c s = s := start_of_ignored c (.inl err)

theorem exec_keepsError {i : Instr} (h : exec i s = .next t) : KeepsError s t := by
  rcases exec_cases h with ⟨-, c, rfl⟩ | ⟨-, p, rfl⟩ | ⟨frame, -⟩
  · rw [start_of_error err]
    exact {}
  · exact {}
  · exact frame.keepsError

theorem hostMove_keepsError {m : HostMove} (notReset : m ≠ .reset) (h : hostMove m s = .next t) : KeepsError s t := by
  cases hostMove_effect h with
  | sees | setsWidth | setsHeight | writesImage => exact {}
  | starts c =>
    rw [start_of_error err]
    exact {}
  | resets isReset => exact absurd isReset notReset
  | runsEngine q run =>
    have kept := engineStep_keepsError run
    exact ⟨kept.err, kept.ecode⟩

end

/-- Settles O37: an error survives each kind of step, and reset starts from a `STATUS` of 0. -/
theorem errorIsStickyUntilReset : Obligations.ErrorIsStickyUntilReset := by
  intro s err
  refine ⟨fun t h => ?_, fun c => ?_, hwReset s, rfl, rfl, rfl⟩
  · have kept : KeepsError s t := by
      rcases h with ⟨i, op⟩ | run | ⟨m, notReset, move⟩
      · exact exec_keepsError err op
      · exact engineStep_keepsError run
      · exact hostMove_keepsError err notReset move
    exact ⟨kept.err.trans err, kept.ecode⟩
  · rw [hostMove_wr_cmd, start_of_error err]

theorem reset_statusWord : State.reset.status.word = 0x00#8 := rfl

/-- Settles O38: the fields of the reset state; by O37 whatever clears `ERR` is a reset. -/
theorem resetReturnsToIdle : Obligations.ResetReturnsToIdle := by
  refine ⟨⟨rfl, reset_statusWord, rfl, rfl, rfl⟩, fun s t err cleared => ?_,
    fun s => ⟨hwReset s, rfl, rfl, reset_statusWord, rfl, rfl, rfl, rfl, rfl⟩⟩
  have notKept : ¬ KeepsError s t := fun kept => Bool.false_ne_true (cleared.symm.trans (kept.err.trans err))
  refine ⟨fun _ op => notKept (exec_keepsError err op), fun run => notKept (engineStep_keepsError run),
    fun _ move => ?_⟩
  by_contra notReset
  exact notKept (hostMove_keepsError err notReset move)

/-! ### Conditions that fault -/

section
variable {s : State}

theorem readCur_of_inactive (inactive : s.curv = false) : readCur s = .error .noActiveRun :=
  if_neg (ne_true_of_eq_false inactive)

theorem memRead_outside {k : Nat} (outside : s.n ≤ k ∨ s.cfg.imgWords ≤ k) : memRead s k = .error .imgOutOfRange :=
  if_neg (by omega)

/-- The four operations of a scan step read their pixel first (R59, R71, R76, R78). -/
theorem scanStep_outside (outside : s.n ≤ s.k ∨ s.cfg.imgWords ≤ s.k) :
    exec .histAcc s = .fault .imgOutOfRange ∧ exec .rleStep s = .fault .imgOutOfRange ∧
    exec .binStep s = .fault .imgOutOfRange ∧ exec .rawStep s = .fault .imgOutOfRange := by
  have unread := memRead_outside outside
  simp only [exec, execHistAcc, execRleStep, execBinStep, execRawStep, unread, withRead_error, and_self]

theorem exec_rleStep_of_unfilled (hk : s.k < s.n) (inMemory : s.k < s.cfg.imgWords) {i : Fin 16}
    (unfilled : s.pal[i].palv = false) : exec .rleStep s = .fault .unsetPaletteSlot := by
  change execRleStep s = _
  rw [execRleStep, memRead_ok hk inMemory, withRead_ok, paletteColours_of_unfilled unfilled, withRead_error]

theorem exec_histAcc_overflow (hk : s.k < s.n) (inMemory : s.k < s.cfg.imgWords)
    (atLimit : 2 ^ s.cfg.cntBits ≤ histGet s.hist (quantize (imgWord s s.k)) + 1) :
    exec .histAcc s = .fault .counterOverflow := by
  change execHistAcc s = _
  rw [execHistAcc, memRead_ok hk inMemory, withRead_ok, if_neg (Nat.not_lt.2 atLimit)]

end

/-- Settles O43: one lemma for each condition; with nothing pending the last one's step is the engine's. -/
theorem unreachableConditionsFault : Obligations.UnreachableConditionsFault := by
  refine ⟨fun _ => readCur_of_inactive, fun _ _ => memRead_outside, fun _ => scanStep_outside,
    fun _ hk inMemory ⟨_, unfilled⟩ => exec_rleStep_of_unfilled hk inMemory unfilled,
    fun _ ⟨_, unfilled⟩ => exec_matchIdx_of_unfilled unfilled, fun _ => exec_palOut_of_unfilled,
    fun _ => exec_histAcc_overflow, fun s alone hp hl => ?_⟩
  rw [step_engine alone.1 alone.2]
  exact engineStep_scan_illegal hp hl

end Sys2Proof.Machine
end
